-- ==== Sys2Proof/Word.lean ====
section
/-! DEFINITION. The word types of the block (00_scope.md R4 notation, R6, R7). -/

namespace Sys2Proof

/-- `u8` of 00_scope.md §4: every data byte, `unit_id` and `function_code` (R6). -/
abbrev U8 := BitVec 8

/-- `u16` of 00_scope.md §4: a word cell, a bank address on the wire, `transaction_id`, `protocol_id`, `length` (R6). -/
abbrev U16 := BitVec 16

/-- `Bit` of 00_scope.md §4: a bit cell; the source's `false` is 0 and `true` is 1 (D14). -/
abbrev Bit := BitVec 1

end Sys2Proof
end

