-- ==== Sys2Proof/Syntax.lean ====
section
/-! DEFINITION. The frame record (10_state.md R19), the operand formats (30_encoding.md R46, R47, R48), the instructions
(R53) and the exception codes (R57). -/

namespace Sys2Proof

/-- The frame record of 10_state.md R19. A decoded frame may break the relations between its fields. -/
structure Frame where
  transactionId : U16
  protocolId : U16
  length : U16
  unitId : U8
  functionCode : U8
  data : List U8
  deriving DecidableEq, Repr

/-- The two header fields of a request that its response repeats and that select nothing (R45, R97). -/
structure Tag where
  tid : U16
  uid : U8
  deriving DecidableEq, Repr

/-- Request data of format `RA` (30_encoding.md R46). -/
inductive RangeOps where
  /-- Exactly 4 data bytes: first cell address and number of cells. -/
  | fields (addr count : U16)
  /-- Data of any other length: still a request (R58). -/
  | misfit (data : List U8)
  deriving DecidableEq, Repr

/-- Request data of format `WS` (30_encoding.md R47). -/
inductive SingleOps where
  /-- Exactly 4 data bytes: cell address and value. -/
  | fields (addr value : U16)
  /-- Data of any other length: still a request (R58). -/
  | misfit (data : List U8)
  deriving DecidableEq, Repr

/-- Request data of format `WM` (30_encoding.md R48). -/
inductive MultiOps where
  /-- At least 5 data bytes: address, count, byte count, and whatever bytes follow (as many as `byteCount` says, or not). -/
  | fields (addr count : U16) (byteCount : U8) (payload : List U8)
  /-- Fewer than 5 data bytes: still a request (R58). -/
  | misfit (data : List U8)
  deriving DecidableEq, Repr

/-- A structurally valid request, by the function code that selects its handler (30_encoding.md R53).
The 12 `ILLEGAL_FUNCTION` rows of opcode_table.json are the one default handler of R53 and R76 (log 14). -/
inductive Instr where
  | readCoils (tag : Tag) (ops : RangeOps)
  | readDiscreteInputs (tag : Tag) (ops : RangeOps)
  | readHoldingRegisters (tag : Tag) (ops : RangeOps)
  | readInputRegisters (tag : Tag) (ops : RangeOps)
  | writeSingleCoil (tag : Tag) (ops : SingleOps)
  | writeSingleRegister (tag : Tag) (ops : SingleOps)
  | writeMultipleCoils (tag : Tag) (ops : MultiOps)
  | writeMultipleRegisters (tag : Tag) (ops : MultiOps)
  | illegalFunction (tag : Tag) (functionCode : U8) (data : List U8)
  deriving DecidableEq, Repr

/-- The exception codes of 30_encoding.md R57. The block emits the first three only; the others are named so that a reader of
responses can name them (U13). -/
inductive ExceptionCode where
  | illegalFunction
  | dataAddress
  | dataValue
  | slaveDeviceFailure
  | acknowledge
  | slaveDeviceBusy
  | memoryParityError
  | gatewayPathUnavailable
  | gatewayTargetDeviceFailedToRespond
  deriving DecidableEq, Repr

end Sys2Proof
end

