-- ==== Sys2Proof/WellFormed.lean ====
section
/-! DEFINITION. Which terms of `Instr` are requests a structurally valid frame can carry: their data fits in 258 bytes
(30_encoding.md R44) and each term is the one the decoder makes of its bytes. -/

namespace Sys2Proof

/-- The most data bytes of a structurally valid frame: `length` 260 less 2 (R44). -/
abbrev maxData : Nat := 258

/-- The eight function codes that have a handler (00_scope.md R3, 30_encoding.md R53). -/
def supported (fc : U8) : Bool :=
  decide (fc ∈ [(0x01 : U8), 0x02, 0x03, 0x04, 0x05, 0x06, 0x0F, 0x10])

/-- Data that misfits format `RA` has a length other than 4 (R46). -/
def RangeOps.wellFormed : RangeOps → Bool
  | .fields _ _ => true
  | .misfit d => decide (d.length ≠ 4) && decide (d.length ≤ maxData)

/-- Data that misfits format `WS` has a length other than 4 (R47). -/
def SingleOps.wellFormed : SingleOps → Bool
  | .fields _ _ => true
  | .misfit d => decide (d.length ≠ 4) && decide (d.length ≤ maxData)

/-- Data too short for format `WM` has fewer than 5 bytes (R48, R87). -/
def MultiOps.wellFormed : MultiOps → Bool
  | .fields _ _ _ payload => decide (5 + payload.length ≤ maxData)
  | .misfit d => decide (d.length < 5)

/-- A term of `Instr` that a structurally valid frame can carry. -/
def Instr.wellFormed : Instr → Bool
  | .readCoils _ ops => ops.wellFormed
  | .readDiscreteInputs _ ops => ops.wellFormed
  | .readHoldingRegisters _ ops => ops.wellFormed
  | .readInputRegisters _ ops => ops.wellFormed
  | .writeSingleCoil _ ops => ops.wellFormed
  | .writeSingleRegister _ ops => ops.wellFormed
  | .writeMultipleCoils _ ops => ops.wellFormed
  | .writeMultipleRegisters _ ops => ops.wellFormed
  | .illegalFunction _ fc d => !supported fc && decide (d.length ≤ maxData)

end Sys2Proof
end

