-- ==== Sys2Proof/Decode.lean ====
section
/-! DEFINITION. The frame codec of 40_frame_codec.md (decode, is_valid, encode), the choice of the handler by function code
(30_encoding.md R53), the encoder of instructions, and the reading of a row of opcode_table.json. -/

namespace Sys2Proof

/-! ### Byte order -/

/-- `be16`: the u16 whose big-endian bytes are `hi`, `lo` (20_memory.md R29). -/
def be16 (hi lo : U8) : U16 := hi ++ lo

/-- `bytes16`: the two big-endian bytes of a u16 (00_scope.md §4). -/
def bytes16 (v : U16) : List U8 := [v.extractLsb' 8 8, v.extractLsb' 0 8]

/-! ### Frames -/

/-- `decode` (40_frame_codec.md R60-R63): `none` is `INCOMPLETE`, else the frame at the front of the buffer and the bytes
after it. A `length` of 0 or 1 takes the 8 header bytes (R62); a `length` above 260 is decoded all the same (R63). -/
def decodeFrame : List U8 → Option (Frame × List U8)
  | t1 :: t0 :: p1 :: p0 :: l1 :: l0 :: u :: f :: rest =>
    let n := (be16 l1 l0).toNat - 2
    if rest.length < n then none
    else some
      ({ transactionId := be16 t1 t0, protocolId := be16 p1 p0, length := be16 l1 l0, unitId := u, functionCode := f,
         data := rest.take n }, rest.drop n)
  | _ => none

/-- `MIN_LEN`, the least legal `length` (00_scope.md R5). -/
abbrev minLen : Nat := 2

/-- `MAX_LEN`, the greatest legal `length` (00_scope.md R5, G1). -/
abbrev maxLen : Nat := 260

/-- `is_valid` (40_frame_codec.md R64). -/
def Frame.isValid (f : Frame) : Bool :=
  decide (f.protocolId = 0) && decide (minLen ≤ f.length.toNat) && decide (f.length.toNat ≤ maxLen) &&
    decide (f.data.length = f.length.toNat - 2)

/-- `encode` of a frame (40_frame_codec.md R65). -/
def encodeFrame (f : Frame) : List U8 :=
  bytes16 f.transactionId ++ bytes16 f.protocolId ++ bytes16 f.length ++ [f.unitId, f.functionCode] ++ f.data

/-- The frame with `protocol_id` 0 and `length` = 2 + |data| (R43, R59). -/
def mkFrame (t : Tag) (fc : U8) (data : List U8) : Frame where
  transactionId := t.tid
  protocolId := 0
  length := BitVec.ofNat 16 (2 + data.length)
  unitId := t.uid
  functionCode := fc
  data := data

/-! ### Operands -/

/-- Format `RA` (30_encoding.md R46). -/
def decodeRangeOps : List U8 → RangeOps
  | [a1, a0, c1, c0] => .fields (be16 a1 a0) (be16 c1 c0)
  | d => .misfit d

/-- Format `WS` (30_encoding.md R47). -/
def decodeSingleOps : List U8 → SingleOps
  | [a1, a0, v1, v0] => .fields (be16 a1 a0) (be16 v1 v0)
  | d => .misfit d

/-- Format `WM` (30_encoding.md R48). -/
def decodeMultiOps : List U8 → MultiOps
  | a1 :: a0 :: c1 :: c0 :: bc :: payload => .fields (be16 a1 a0) (be16 c1 c0) bc payload
  | d => .misfit d

/-- The data bytes of format `RA`. -/
def RangeOps.data : RangeOps → List U8
  | .fields addr count => bytes16 addr ++ bytes16 count
  | .misfit d => d

/-- The data bytes of format `WS`. -/
def SingleOps.data : SingleOps → List U8
  | .fields addr value => bytes16 addr ++ bytes16 value
  | .misfit d => d

/-- The data bytes of format `WM`. -/
def MultiOps.data : MultiOps → List U8
  | .fields addr count bc payload => bytes16 addr ++ bytes16 count ++ bc :: payload
  | .misfit d => d

/-! ### The function-code map -/

/-- The echoed header fields of a frame. -/
def Frame.tag (f : Frame) : Tag := { tid := f.transactionId, uid := f.unitId }

/-- `select` of 41_engine.md R74: the instruction a frame carries, by its function code alone (30_encoding.md R53, R54). -/
def select (f : Frame) : Instr :=
  match f.functionCode with
  | 0x01 => .readCoils f.tag (decodeRangeOps f.data)
  | 0x02 => .readDiscreteInputs f.tag (decodeRangeOps f.data)
  | 0x03 => .readHoldingRegisters f.tag (decodeRangeOps f.data)
  | 0x04 => .readInputRegisters f.tag (decodeRangeOps f.data)
  | 0x05 => .writeSingleCoil f.tag (decodeSingleOps f.data)
  | 0x06 => .writeSingleRegister f.tag (decodeSingleOps f.data)
  | 0x0F => .writeMultipleCoils f.tag (decodeMultiOps f.data)
  | 0x10 => .writeMultipleRegisters f.tag (decodeMultiOps f.data)
  | fc => .illegalFunction f.tag fc f.data

/-- What the front of a reassembly buffer holds. -/
inductive Decoded where
  /-- No whole frame yet: nothing is consumed (R60). -/
  | incomplete
  /-- A whole frame that fails `is_valid` (R64). -/
  | invalidFrame (f : Frame)
  /-- A structurally valid request, and the bytes after it. -/
  | request (i : Instr) (rest : List U8)
  deriving DecidableEq, Repr

/-- The decoder: total on any bytes (40_frame_codec.md R60-R64, 30_encoding.md R54). -/
def decode (buf : List U8) : Decoded :=
  match decodeFrame buf with
  | none => .incomplete
  | some (f, rest) => if f.isValid then .request (select f) rest else .invalidFrame f

/-! ### The encoder -/

/-- The frame of an instruction (30_encoding.md R59). -/
def Instr.toFrame : Instr → Frame
  | .readCoils t ops => mkFrame t 0x01 ops.data
  | .readDiscreteInputs t ops => mkFrame t 0x02 ops.data
  | .readHoldingRegisters t ops => mkFrame t 0x03 ops.data
  | .readInputRegisters t ops => mkFrame t 0x04 ops.data
  | .writeSingleCoil t ops => mkFrame t 0x05 ops.data
  | .writeSingleRegister t ops => mkFrame t 0x06 ops.data
  | .writeMultipleCoils t ops => mkFrame t 0x0F ops.data
  | .writeMultipleRegisters t ops => mkFrame t 0x10 ops.data
  | .illegalFunction t fc d => mkFrame t fc d

/-- The bytes of an instruction on the wire (30_encoding.md R43, R59). -/
def encode (i : Instr) : List U8 := encodeFrame i.toFrame

/-! ### Rows of opcode_table.json -/

/-- How many data bytes the shortest frame that fits the function code's format has (R46, R47, R48). -/
def formatLen (fc : U8) : Nat :=
  match fc with
  | 0x01 | 0x02 | 0x03 | 0x04 | 0x05 | 0x06 => 4
  | 0x0F | 0x10 => 5
  | _ => 0

/-- The bytes of a table word: bits 7..0 are the first byte, bits 15..8 the next. -/
def tableBytes (nbits w : Nat) : List U8 :=
  (List.range ((nbits + 7) / 8)).map fun i => BitVec.ofNat 8 (w / 256 ^ i)

/-- The frame on the wire of a table word. The table's bits are those of ADU byte 7, the function code (opcode_table.json), and
any further byte is a data byte. The rest of the frame is transaction id 0, protocol id 0, unit id 0, data bytes of zero up to
the format's length, and the `length` that fits them (log 6). -/
def tableFrame (nbits w : Nat) : List U8 :=
  match tableBytes nbits w with
  | [] => []
  | fc :: d => encodeFrame (mkFrame { tid := 0, uid := 0 } fc (d ++ List.replicate (formatLen fc - d.length) 0))

/-- The instruction this decoder reads from a table word. -/
def decodeTableWord (nbits w : Nat) : Option Instr :=
  match decode (tableFrame nbits w) with
  | .request i _ => some i
  | _ => none

end Sys2Proof
end

