-- ==== Sys2Proof/Config.lean ====
section
/-! DEFINITION. The parameters of the block, fixed for a run (00_scope.md R5).
`Machine.State.initial` takes them as its argument; the machine then holds them as plain data that no step changes. -/

namespace Sys2Proof

/-- The parameters of 00_scope.md R5. `INIT_STORE` is not among them: the device's own steps make it (R101, R106). -/
structure Params where
  /-- `N_CONN`, the number of connection slots. -/
  nConn : Nat
  /-- `CAP_DI`. -/
  capDi : Nat
  /-- `CAP_CO`. -/
  capCo : Nat
  /-- `CAP_IR`. -/
  capIr : Nat
  /-- `CAP_HR`. -/
  capHr : Nat
  /-- `RBUF_CAP` in bytes; `none` is the unbounded default. -/
  rbufCap : Option Nat
  deriving DecidableEq, Repr

/-- The greatest capacity of a bank, 0x10000 cells (R5, R10). -/
abbrev maxCapacity : Nat := 0x10000

/-- The ranges R5 gives: `N_CONN` at least 1, every capacity at most 0x10000. -/
def Params.wf (p : Params) : Bool :=
  decide (1 ≤ p.nConn) && decide (p.capDi ≤ maxCapacity) && decide (p.capCo ≤ maxCapacity) &&
    decide (p.capIr ≤ maxCapacity) && decide (p.capHr ≤ maxCapacity)

/-- The defaults of R5. R5 gives no default for `N_CONN`: DESIGN CHOICE 2 slots (log 4). -/
def Params.default : Params where
  nConn := 2
  capDi := maxCapacity
  capCo := maxCapacity
  capIr := maxCapacity
  capHr := maxCapacity
  rbufCap := none

end Sys2Proof
end

