-- ==== Sys2Proof/Machine/State.lean ====
section
/-! DEFINITION. The state of the machine as plain data (10_state.md), its reset, and the reasons a step can stop. -/

namespace Sys2Proof.Machine

/-! ### The DataStore -/

/-- A data bank (10_state.md R9, R10): its capacity, and the cells that do not hold the fill value 0, by rising address.
`w` is the width of a cell: 1 in a bit bank, 16 in a word bank. An unlisted cell reads 0 (R103, log 5). -/
structure Bank (w : Nat) where
  cap : Nat
  cells : List (Nat × BitVec w)
  deriving DecidableEq, Repr

/-- The four banks (10_state.md R9); the "memory" of this block (20_memory.md). -/
structure DataStore where
  di : Bank 1
  co : Bank 1
  ir : Bank 16
  hr : Bank 16
  deriving DecidableEq, Repr

/-! ### The engines -/

/-- `PHASE[k]` (10_state.md R13). -/
inductive Phase where
  | idle
  | drain
  deriving DecidableEq, Repr

/-- An entry of `OUT[k]`: the bytes of one response (41_engine.md R74), or the marker of a close (70_reset_and_hazards.md R105, log 20). -/
inductive OutItem where
  | frame (bytes : List U8)
  | close
  deriving DecidableEq, Repr

/-- The four pieces of state of `ENGINE[k]` (10_state.md R13). -/
structure Engine where
  rbuf : List U8
  phase : Phase
  fault : Bool
  out : List OutItem
  deriving DecidableEq, Repr

/-! ### The agents' steps -/

/-- The name of a bank, for the device interface (60_exceptions.md R101). -/
inductive BankName where
  | di | co | ir | hr
  deriving DecidableEq, Repr

/-- The two bit banks. -/
inductive BitBank where
  | di | co
  deriving DecidableEq, Repr

/-- The two word banks. -/
inductive WordBank where
  | ir | hr
  deriving DecidableEq, Repr

/-- One step of one agent (10_state.md R8). The spec lets the agents' steps interleave in any order (R36, R100, R101, R105). -/
inductive Event where
  /-- `ENGINE[k]` takes its turn (41_engine.md R71). -/
  | engine (k : Nat)
  /-- The host opens slot `k`, which is new or closed (70_reset_and_hazards.md R104, R105). -/
  | connOpen (k : Nat)
  /-- The host calls `process(chunk)` on `ENGINE[k]` (41_engine.md R69). -/
  | process (k : Nat) (chunk : List U8)
  /-- The host closes slot `k` (70_reset_and_hazards.md R105). -/
  | connClose (k : Nat)
  /-- The host reads `FAULT[k]` (60_exceptions.md R102). -/
  | readFault (k : Nat)
  /-- `DEVICE.get` (60_exceptions.md R101). -/
  | devGet (bank : BankName) (addr count : Int)
  /-- `DEVICE.set` on a bit bank (60_exceptions.md R101). -/
  | devSetBits (bank : BitBank) (addr : Int) (values : List Bit)
  /-- `DEVICE.set` on a word bank (60_exceptions.md R101). -/
  | devSetWords (bank : WordBank) (addr : Int) (values : List U16)
  deriving DecidableEq, Repr

/-- What a bank operation returns to the device (20_memory.md R26, R27, R28). -/
inductive DeviceReply where
  | bits (values : List Bit)
  | words (values : List U16)
  | written
  | addressRangeError
  deriving DecidableEq, Repr

/-! ### The machine -/

/-- The machine. `store`, `engines` and `rbufCap` are the spec's state (R9, R13, R5); `active`, `agenda`, `deviceOut` and `hostOut`
are the model's own fields (log 1, 3, 11). -/
structure State where
  /-- The one shared DataStore (R9, R12). -/
  store : DataStore
  /-- `ENGINE[0]` .. `ENGINE[N_CONN-1]` (R8, R100). -/
  engines : List Engine
  /-- `RBUF_CAP` (R5, R70); `none` is unbounded. -/
  rbufCap : Option Nat
  /-- The slot whose engine handles the frame given to `exec` (the k of 41_engine.md R74; log 3). -/
  active : Nat
  /-- The agents' next steps, in the order they take effect: the free interleaving of R36 and R100 as plain data (log 1). -/
  agenda : List Event
  /-- What the device's bank operations returned, in order (log 11). -/
  deviceOut : List DeviceReply
  /-- What the host's reads of a fault bit returned, with the slot, in order (log 11). -/
  hostOut : List (Nat × Bool)
  deriving DecidableEq, Repr

/-- Why the machine stops. No instruction and no data on the wire raises one of these. -/
inductive Fault where
  /-- Raised by `hostProcess`: the host calls `process()` on an engine whose last call still runs, and "a host that breaks this has no
  step in this machine" (70_reset_and_hazards.md R107). Safe (log 8). -/
  | processWhileDraining
  /-- Raised by `hostOpen`: the host opens a slot that is in use. A slot "may be opened again" after a close
  (70_reset_and_hazards.md R105), and a fault is left only by a close (60_exceptions.md R95). Safe (log 7). -/
  | openWithoutClose
  /-- Raised by any agent's step on slot k, and by `reply`: there is no slot k, since slots are 0 .. N_CONN-1
  (60_exceptions.md R100). Safe (log 9). -/
  | noSuchSlot
  deriving DecidableEq, Repr

/-- Why an instruction has no meaning in the model. -/
inductive Refusal where
  /-- Raised by an arm of `exec` whose instruction is not modelled yet; no arm is. Safe. -/
  | notModelled (mnemonic : String)
  deriving DecidableEq, Repr

/-! ### Reset -/

/-- A bank as built: every cell 0 (70_reset_and_hazards.md R103). -/
def Bank.built (w cap : Nat) : Bank w := { cap := cap, cells := [] }

/-- An engine slot at the start of the run (10_state.md R22, 70_reset_and_hazards.md R104). -/
def Engine.reset : Engine := { rbuf := [], phase := .idle, fault := false, out := [] }

/-- The machine built with the parameters `p` (10_state.md R22, 70_reset_and_hazards.md R103, R104), nothing scheduled. -/
def State.initial (p : Params) : State where
  store :=
    { di := Bank.built 1 p.capDi, co := Bank.built 1 p.capCo, ir := Bank.built 16 p.capIr, hr := Bank.built 16 p.capHr }
  engines := List.replicate p.nConn Engine.reset
  rbufCap := p.rbufCap
  active := 0
  agenda := []
  deviceOut := []
  hostOut := []

/-- The machine right after reset, with the default parameters (R5, R22). -/
def State.reset : State := State.initial Params.default

end Sys2Proof.Machine
end

