-- ==== Sys2Proof/Machine/Flags.lean ====
section
/-! DEFINITION. The block has no condition codes (10_state.md R17). This file holds the tests that play their part: the range
condition, the count limits, and the function-code bit that marks an exception response. -/

namespace Sys2Proof.Machine

/-- The range condition, on unbounded integers (20_memory.md R25). -/
def inRange (cap : Nat) (addr count : Int) : Bool :=
  decide (0 ≤ addr) && decide (0 ≤ count) && decide (addr + count ≤ (cap : Int))

/-- The count check of R79, R87 and R88. -/
def countOk (maxCount : Nat) (count : U16) : Bool :=
  decide (1 ≤ count.toNat) && decide (count.toNat ≤ maxCount)

/-- The most cells of a read of bits, 2000 (20_memory.md R33). -/
abbrev maxReadBits : Nat := 0x07D0

/-- The most cells of a read of words, 125 (20_memory.md R33). -/
abbrev maxReadWords : Nat := 0x007D

/-- The most cells of a write of bits, 1968 (20_memory.md R33). -/
abbrev maxWriteBits : Nat := 0x07B0

/-- The most cells of a write of words, 123 (20_memory.md R33). -/
abbrev maxWriteWords : Nat := 0x007B

/-- The function code of an exception response (30_encoding.md R56, 90_conflicts.md C1). -/
def exceptionFunctionCode (fc : U8) : U8 := fc ||| 0x80

/-- Bit 7 of a response's function code: set in an exception response, clear in a success response (30_encoding.md R56). -/
def isExceptionCode (fc : U8) : Bool := fc.getLsbD 7

/-- The code byte of an exception (30_encoding.md R57). -/
def exceptionByte : ExceptionCode → U8
  | .illegalFunction => 0x01
  | .dataAddress => 0x02
  | .dataValue => 0x03
  | .slaveDeviceFailure => 0x04
  | .acknowledge => 0x05
  | .slaveDeviceBusy => 0x06
  | .memoryParityError => 0x08
  | .gatewayPathUnavailable => 0x0A
  | .gatewayTargetDeviceFailedToRespond => 0x0B

/-- Whether a reassembly buffer of `n` bytes is longer than `RBUF_CAP` (41_engine.md R70). -/
def overflows (rbufCap : Option Nat) (n : Nat) : Bool :=
  match rbufCap with
  | none => false
  | some cap => decide (cap < n)

end Sys2Proof.Machine
end

