-- ==== Sys2Proof/Machine/Operands.lean ====
section
/-! DEFINITION. How cells travel in a frame: packed bits (20_memory.md R30), big-endian words (R29, R31), and the coil value
(43_write_functions.md R85). -/

namespace Sys2Proof.Machine

/-- `ceil8` of 00_scope.md §4. -/
def ceil8 (n : Nat) : Nat := (n + 7) / 8

/-- Byte `j` of `pack`: cell `8j + i` at bit position `i`, 0 where there is no such cell (20_memory.md R30). -/
def packByte (v : List Bit) (j : Nat) : U8 :=
  v.getD (8 * j + 7) 0 ++ v.getD (8 * j + 6) 0 ++ v.getD (8 * j + 5) 0 ++ v.getD (8 * j + 4) 0 ++
    v.getD (8 * j + 3) 0 ++ v.getD (8 * j + 2) 0 ++ v.getD (8 * j + 1) 0 ++ v.getD (8 * j) 0

/-- `pack`: bit cells eight to a byte, least significant bit first (20_memory.md R30). -/
def pack (v : List Bit) : List U8 := (List.range (ceil8 v.length)).map (packByte v)

/-- Bit `i` of packed bytes. -/
def packedBit (p : List U8) (i : Nat) : Bit := (p.getD (i / 8) 0).extractLsb' (i % 8) 1

/-- `unpack`: the first `count` bits of packed bytes (20_memory.md R30). -/
def unpack (p : List U8) (count : Nat) : List Bit := (List.range count).map (packedBit p)

/-- The mask of a word cell on read, the identity on a u16 (20_memory.md R31, 90_conflicts.md C4). -/
def maskWord (v : U16) : U16 := v &&& 0xFFFF

/-- Words on the wire: big-endian, in ascending cell order (42_read_functions.md R79). -/
def wordBytes (v : List U16) : List U8 := v.flatMap fun x => bytes16 (maskWord x)

/-- Word `i` of a payload of words (30_encoding.md R48). -/
def payloadWord (p : List U8) (i : Nat) : U16 := be16 (p.getD (2 * i) 0) (p.getD (2 * i + 1) 0)

/-- The `count` words of a payload (43_write_functions.md R88). -/
def payloadWords (p : List U8) (count : Nat) : List U16 := (List.range count).map (payloadWord p)

/-- The coil a value of `WRITE_SINGLE_COIL` stands for, if it stands for one; compared whole (R49, 43_write_functions.md R85). -/
def coilValue (value : U16) : Option Bit :=
  if value = 0xFF00 then some 1 else if value = 0x0000 then some 0 else none

/-- Response data of format `RR`: the byte count, then the payload (30_encoding.md R50). -/
def countedPayload (payload : List U8) : List U8 := BitVec.ofNat 8 payload.length :: payload

end Sys2Proof.Machine
end

