-- ==== Sys2Proof/Machine/Ops.lean ====
section
/-! DEFINITION. The named operations: the bank primitives (20_memory.md §2), the derived frames (40_frame_codec.md R67, R68), the
reply of a handler (41_engine.md R74), the exception (60_exceptions.md R93), and the changes of an engine's state (R69, R72, R104, R105). -/

namespace Sys2Proof.Machine

/-! ### Cells -/

/-- The value of cell `a`: its entry, or the fill value 0 where none is listed (70_reset_and_hazards.md R103, log 5). -/
def lookupCell {w : Nat} : List (Nat × BitVec w) → Nat → BitVec w
  | [], _ => 0#w
  | (b, v) :: rest, a => if b = a then v else lookupCell rest a

/-- Write cell `a`, keeping the list canonical: addresses rising, no entry that holds the fill value. -/
def updateCell {w : Nat} : List (Nat × BitVec w) → Nat → BitVec w → List (Nat × BitVec w)
  | [], a, v => if v = 0#w then [] else [(a, v)]
  | (b, u) :: rest, a, v =>
    if b < a then (b, u) :: updateCell rest a v
    else if b = a then (if v = 0#w then rest else (a, v) :: rest)
    else (if v = 0#w then (b, u) :: rest else (a, v) :: (b, u) :: rest)

/-- The canonical form of a list of cells below `cap`: addresses strictly rising from `lo` on, all below `cap`, no 0 listed. -/
def canonicalFrom {w : Nat} (cap : Nat) : Nat → List (Nat × BitVec w) → Bool
  | _, [] => true
  | lo, (a, v) :: rest => decide (lo ≤ a) && decide (a < cap) && decide (v ≠ 0#w) && canonicalFrom cap (a + 1) rest

/-- Cell `a` of a bank. -/
def Bank.cell {w : Nat} (b : Bank w) (a : Nat) : BitVec w := lookupCell b.cells a

/-- A bank's capacity is at most 0x10000 (10_state.md R10) and its list of cells is canonical. -/
def Bank.wf {w : Nat} (b : Bank w) : Bool := decide (b.cap ≤ maxCapacity) && canonicalFrom b.cap 0 b.cells

/-- Every bank of the store is well formed. -/
def DataStore.wf (d : DataStore) : Bool := d.di.wf && d.co.wf && d.ir.wf && d.hr.wf

/-- The canonical form of the memory, which is the DataStore (20_memory.md). -/
abbrev Memory.wf (d : DataStore) : Bool := d.wf

/-- `count` cells from `addr` on, in ascending order. -/
def Bank.readCells {w : Nat} (b : Bank w) (addr count : Nat) : List (BitVec w) :=
  (List.range count).map fun i => b.cell (addr + i)

/-- `values` written to the cells from `addr` on. -/
def Bank.writeCells {w : Nat} (b : Bank w) (addr : Nat) : List (BitVec w) → Bank w
  | [] => b
  | v :: vs => Bank.writeCells { b with cells := updateCell b.cells addr v } (addr + 1) vs

/-! ### The bank primitives -/

/-- `B.get(addr, count)`; `none` is `AddressRangeError` (20_memory.md R26). -/
def Bank.get {w : Nat} (b : Bank w) (addr count : Int) : Option (List (BitVec w)) :=
  if inRange b.cap addr count then some (b.readCells addr.toNat count.toNat) else none

/-- `B.set(addr, values)`; `none` is `AddressRangeError`, and then nothing is written (20_memory.md R27). -/
def Bank.set {w : Nat} (b : Bank w) (addr : Int) (values : List (BitVec w)) : Option (Bank w) :=
  if inRange b.cap addr (values.length : Int) then some (b.writeCells addr.toNat values) else none

/-! ### Derived frames -/

/-- `derive_response` (40_frame_codec.md R67); with `none` the response keeps the request's own data. -/
def deriveResponse (req : Frame) (data : Option (List U8)) : Frame :=
  { transactionId := req.transactionId, protocolId := req.protocolId
    length := BitVec.ofNat 16 (2 + (data.getD req.data).length)
    unitId := req.unitId, functionCode := req.functionCode, data := data.getD req.data }

/-- `derive_exception` (40_frame_codec.md R68). -/
def deriveException (req : Frame) (code : ExceptionCode) : Frame :=
  { transactionId := req.transactionId, protocolId := req.protocolId, length := 3
    unitId := req.unitId, functionCode := exceptionFunctionCode req.functionCode, data := [exceptionByte code] }

/-! ### Changing the state -/

/-- Change engine `k` by `f`. -/
def State.modifyEngine (s : State) (k : Nat) (f : Engine → Engine) : State :=
  { s with engines := s.engines.modify k f }

/-- Replace the discrete inputs. -/
def State.withDi (s : State) (b : Bank 1) : State := { s with store := { s.store with di := b } }

/-- Replace the coils. -/
def State.withCo (s : State) (b : Bank 1) : State := { s with store := { s.store with co := b } }

/-- Replace the input registers. -/
def State.withIr (s : State) (b : Bank 16) : State := { s with store := { s.store with ir := b } }

/-- Replace the holding registers. -/
def State.withHr (s : State) (b : Bank 16) : State := { s with store := { s.store with hr := b } }

/-- An engine that has handed one response to its sink (41_engine.md R74). -/
def Engine.push (e : Engine) (item : OutItem) : Engine := { e with out := e.out ++ [item] }

/-- `OUT[k] <- OUT[k] ++ [bytes]` for the active slot k (41_engine.md R74). -/
def State.send (s : State) (bytes : List U8) : State :=
  s.modifyEngine s.active fun e => e.push (.frame bytes)

/-- A handler's end: its response is encoded and sent, once (41_engine.md R74). -/
def reply (s : State) (r : Frame) : Host.Outcome State Fault Refusal :=
  if s.active < s.engines.length then .next (s.send (encodeFrame r)) else .fault .noSuchSlot

/-- Taking an exception, `raise ModbusException(code)`: the handler stops and `derive_exception` of the request is its response.
Nothing is saved, no bank and no mode changes, and the drain loop goes on (60_exceptions.md R93); there is no return (R94). -/
def takeException (s : State) (req : Frame) (code : ExceptionCode) : Host.Outcome State Fault Refusal :=
  reply s (deriveException req code)

/-- `ConnectionFault(reason)` on an engine; the reason is not kept (41_engine.md R72, 60_exceptions.md R95). -/
def Engine.connectionFault (e : Engine) : Engine := { e with rbuf := [], phase := .idle, fault := true }

/-- Whether an engine has the values of a new or a closed slot (70_reset_and_hazards.md R104, R105). A slot without them is in use:
it drains, holds bytes, or is faulted (log 7). -/
def Engine.unused (e : Engine) : Bool := decide (e.rbuf = []) && decide (e.phase = .idle) && !e.fault

/-- The reset of an engine at the open of its connection; the log `OUT` stays (70_reset_and_hazards.md R104, 10_state.md R22). -/
def Engine.opened (e : Engine) : Engine := { e with rbuf := [], phase := .idle, fault := false }

/-- `close(k)` on an engine (70_reset_and_hazards.md R105). -/
def Engine.closed (e : Engine) : Engine := { e with rbuf := [], phase := .idle, fault := false, out := e.out ++ [.close] }

end Sys2Proof.Machine
end

