-- ==== Sys2Proof/Machine/DefaultHandler.lean ====
section
/-! DEFINITION. The default handler (41_engine.md R76). -/

namespace Sys2Proof.Machine

/-- ILLEGAL_FUNCTION: the data is never looked at (41_engine.md R76). -/
def execIllegalFunction (tag : Tag) (functionCode : U8) (data : List U8) (s : State) : Host.Outcome State Fault Refusal :=
  takeException s (mkFrame tag functionCode data) .illegalFunction

end Sys2Proof.Machine
end

