-- ==== Sys2Proof/Machine/ReadFunctions.lean ====
section
/-! DEFINITION. The four read functions (42_read_functions.md). -/

namespace Sys2Proof.Machine

/-- The common read algorithm `READ(F, B, MAXC, K)` (42_read_functions.md R79); `payload` is the payload form K. The address check of
R79 is the bank's own range condition (R25), so it is made by `B.get` itself (log 16). -/
def readHandler {w : Nat} (req : Frame) (ops : RangeOps) (b : Bank w) (maxCount : Nat)
    (payload : List (BitVec w) → List U8) (s : State) : Host.Outcome State Fault Refusal :=
  match ops with
  | .misfit _ => takeException s req .dataValue
  | .fields addr count =>
    if countOk maxCount count then
      match b.get addr.toNat count.toNat with
      | none => takeException s req .dataAddress
      | some v => reply s (deriveResponse req (some (countedPayload (payload v))))
    else takeException s req .dataValue

/-- READ_COILS (42_read_functions.md R80). -/
def execReadCoils (tag : Tag) (ops : RangeOps) (s : State) : Host.Outcome State Fault Refusal :=
  readHandler (mkFrame tag 0x01 ops.data) ops s.store.co maxReadBits pack s

/-- READ_DISCRETE_INPUTS (42_read_functions.md R81). -/
def execReadDiscreteInputs (tag : Tag) (ops : RangeOps) (s : State) : Host.Outcome State Fault Refusal :=
  readHandler (mkFrame tag 0x02 ops.data) ops s.store.di maxReadBits pack s

/-- READ_HOLDING_REGISTERS (42_read_functions.md R82). -/
def execReadHoldingRegisters (tag : Tag) (ops : RangeOps) (s : State) : Host.Outcome State Fault Refusal :=
  readHandler (mkFrame tag 0x03 ops.data) ops s.store.hr maxReadWords wordBytes s

/-- READ_INPUT_REGISTERS (42_read_functions.md R83). -/
def execReadInputRegisters (tag : Tag) (ops : RangeOps) (s : State) : Host.Outcome State Fault Refusal :=
  readHandler (mkFrame tag 0x04 ops.data) ops s.store.ir maxReadWords wordBytes s

end Sys2Proof.Machine
end

