-- ==== Sys2Proof/Machine/WriteFunctions.lean ====
section
/-! DEFINITION. The four write functions (43_write_functions.md). In each, the address check is the bank's own range condition
(R84), so it is made by `B.set` itself (log 16), and the `set` comes before the response (20_memory.md R37). -/

namespace Sys2Proof.Machine

/-- WRITE_SINGLE_COIL (43_write_functions.md R85). -/
def execWriteSingleCoil (tag : Tag) (ops : SingleOps) (s : State) : Host.Outcome State Fault Refusal :=
  let req := mkFrame tag 0x05 ops.data
  match ops with
  | .misfit _ => takeException s req .dataValue
  | .fields addr value =>
    match coilValue value with
    | none => takeException s req .dataValue
    | some b =>
      match s.store.co.set addr.toNat [b] with
      | none => takeException s req .dataAddress
      | some co => reply (s.withCo co) (deriveResponse req none)

/-- WRITE_SINGLE_REGISTER (43_write_functions.md R86). -/
def execWriteSingleRegister (tag : Tag) (ops : SingleOps) (s : State) : Host.Outcome State Fault Refusal :=
  let req := mkFrame tag 0x06 ops.data
  match ops with
  | .misfit _ => takeException s req .dataValue
  | .fields addr value =>
    match s.store.hr.set addr.toNat [value] with
    | none => takeException s req .dataAddress
    | some hr => reply (s.withHr hr) (deriveResponse req none)

/-- Response data of a multiple write: `addr` and `count`, the first 4 bytes of the request data (30_encoding.md R51). -/
def echoRange (addr count : U16) : List U8 := bytes16 addr ++ bytes16 count

/-- WRITE_MULTIPLE_COILS (43_write_functions.md R87). -/
def execWriteMultipleCoils (tag : Tag) (ops : MultiOps) (s : State) : Host.Outcome State Fault Refusal :=
  let req := mkFrame tag 0x0F ops.data
  match ops with
  | .misfit _ => takeException s req .dataValue
  | .fields addr count bc payload =>
    if countOk maxWriteBits count && decide (bc.toNat = ceil8 count.toNat) && decide (payload.length = bc.toNat) then
      match s.store.co.set addr.toNat (unpack payload count.toNat) with
      | none => takeException s req .dataAddress
      | some co => reply (s.withCo co) (deriveResponse req (some (echoRange addr count)))
    else takeException s req .dataValue

/-- WRITE_MULTIPLE_REGISTERS (43_write_functions.md R88). -/
def execWriteMultipleRegisters (tag : Tag) (ops : MultiOps) (s : State) : Host.Outcome State Fault Refusal :=
  let req := mkFrame tag 0x10 ops.data
  match ops with
  | .misfit _ => takeException s req .dataValue
  | .fields addr count bc payload =>
    if countOk maxWriteWords count && decide (bc.toNat = 2 * count.toNat) && decide (payload.length = bc.toNat) then
      match s.store.hr.set addr.toNat (payloadWords payload count.toNat) with
      | none => takeException s req .dataAddress
      | some hr => reply (s.withHr hr) (deriveResponse req (some (echoRange addr count)))
    else takeException s req .dataValue

end Sys2Proof.Machine
end

