-- ==== Sys2Proof/Machine/Dispatch.lean ====
section
/-! DEFINITION. The dispatch of a valid request to its handler (41_engine.md R74, 30_encoding.md R53): one arm per instruction. -/

namespace Sys2Proof.Machine

def exec (i : Instr) (s : State) : Host.Outcome State Fault Refusal :=
  match i with
  | .readCoils tag ops => Sys2Proof.Machine.execReadCoils tag ops s
  | .readDiscreteInputs tag ops => Sys2Proof.Machine.execReadDiscreteInputs tag ops s
  | .readHoldingRegisters tag ops => Sys2Proof.Machine.execReadHoldingRegisters tag ops s
  | .readInputRegisters tag ops => Sys2Proof.Machine.execReadInputRegisters tag ops s
  | .writeSingleCoil tag ops => Sys2Proof.Machine.execWriteSingleCoil tag ops s
  | .writeSingleRegister tag ops => Sys2Proof.Machine.execWriteSingleRegister tag ops s
  | .writeMultipleCoils tag ops => Sys2Proof.Machine.execWriteMultipleCoils tag ops s
  | .writeMultipleRegisters tag ops => Sys2Proof.Machine.execWriteMultipleRegisters tag ops s
  | .illegalFunction tag functionCode data => Sys2Proof.Machine.execIllegalFunction tag functionCode data s

end Sys2Proof.Machine
end

