-- ==== Sys2Proof/Machine/Agents.lean ====
section
/-! DEFINITION. The steps of the agents: an engine's drain step (41_engine.md R71), the host's steps (60_exceptions.md R102), the
device's steps (R101), and which step comes next. -/

namespace Sys2Proof.Machine

/-! ### The engine -/

/-- `drain_step` of `ENGINE[k]`, whose state is `e`: decode, validity check, handling and response of one frame are one step
(41_engine.md R71, D12). -/
def drainStep (k : Nat) (e : Engine) (s : State) : Host.Outcome State Fault Refusal :=
  match decode e.rbuf with
  | .incomplete => .next (s.modifyEngine k fun e => { e with phase := .idle })
  | .invalidFrame _ => .next (s.modifyEngine k Engine.connectionFault)
  | .request i rest => exec i { s.modifyEngine k (fun e => { e with rbuf := rest }) with active := k }

/-- A turn of `ENGINE[k]`: its drain step where it drains; an idle engine waits and nothing changes (R71, R99, log 10). -/
def engineTurn (k : Nat) (s : State) : Host.Outcome State Fault Refusal :=
  match s.engines[k]? with
  | none => .fault .noSuchSlot
  | some e =>
    match e.phase with
    | .idle => .next s
    | .drain => drainStep k e s

/-! ### The host -/

/-- `process(chunk)` on `ENGINE[k]` (41_engine.md R69, R70, R73); no step while the engine drains (R107, log 8). -/
def hostProcess (k : Nat) (chunk : List U8) (s : State) : Host.Outcome State Fault Refusal :=
  match s.engines[k]? with
  | none => .fault .noSuchSlot
  | some e =>
    match e.phase with
    | .drain => .fault .processWhileDraining
    | .idle =>
      if e.fault then .next s
      else if overflows s.rbufCap (e.rbuf ++ chunk).length then .next (s.modifyEngine k Engine.connectionFault)
      else .next (s.modifyEngine k fun e => { e with rbuf := e.rbuf ++ chunk, phase := .drain })

/-- The host opens slot `k` (70_reset_and_hazards.md R104). A slot in use has no open: it must be closed first (R105), and only a
close clears a fault (41_engine.md R73, 60_exceptions.md R95; log 7). -/
def hostOpen (k : Nat) (s : State) : Host.Outcome State Fault Refusal :=
  match s.engines[k]? with
  | none => .fault .noSuchSlot
  | some e => if e.unused then .next (s.modifyEngine k Engine.opened) else .fault .openWithoutClose

/-- The host closes slot `k`, at any step boundary (70_reset_and_hazards.md R105). -/
def hostClose (k : Nat) (s : State) : Host.Outcome State Fault Refusal :=
  if k < s.engines.length then .next (s.modifyEngine k Engine.closed) else .fault .noSuchSlot

/-- The host reads `FAULT[k]`; the engine does nothing (60_exceptions.md R102). -/
def hostReadFault (k : Nat) (s : State) : Host.Outcome State Fault Refusal :=
  match s.engines[k]? with
  | none => .fault .noSuchSlot
  | some e => .next { s with hostOut := s.hostOut ++ [(k, e.fault)] }

/-! ### The device -/

/-- A bank operation's result goes back to the device (60_exceptions.md R101, log 11). -/
def State.answerDevice (s : State) (r : DeviceReply) : State := { s with deviceOut := s.deviceOut ++ [r] }

/-- The reply to a `get` of a bit bank. -/
def bitsReply : Option (List Bit) → DeviceReply
  | none => .addressRangeError
  | some v => .bits v

/-- The reply to a `get` of a word bank. -/
def wordsReply : Option (List U16) → DeviceReply
  | none => .addressRangeError
  | some v => .words v

/-- `DEVICE.get(B, addr, count)` (60_exceptions.md R101). -/
def deviceGet (bank : BankName) (addr count : Int) (s : State) : Host.Outcome State Fault Refusal :=
  .next <| s.answerDevice <|
    match bank with
    | .di => bitsReply (s.store.di.get addr count)
    | .co => bitsReply (s.store.co.get addr count)
    | .ir => wordsReply (s.store.ir.get addr count)
    | .hr => wordsReply (s.store.hr.get addr count)

/-- `DEVICE.set(B, addr, values)` on a bit bank; a failing call changes nothing (60_exceptions.md R101). -/
def deviceSetBits (bank : BitBank) (addr : Int) (values : List Bit) (s : State) : Host.Outcome State Fault Refusal :=
  let done := match bank with
    | .di => (s.store.di.set addr values).map s.withDi
    | .co => (s.store.co.set addr values).map s.withCo
  match done with
  | none => .next (s.answerDevice .addressRangeError)
  | some t => .next (t.answerDevice .written)

/-- `DEVICE.set(B, addr, values)` on a word bank; a failing call changes nothing (60_exceptions.md R101). -/
def deviceSetWords (bank : WordBank) (addr : Int) (values : List U16) (s : State) : Host.Outcome State Fault Refusal :=
  let done := match bank with
    | .ir => (s.store.ir.set addr values).map s.withIr
    | .hr => (s.store.hr.set addr values).map s.withHr
  match done with
  | none => .next (s.answerDevice .addressRangeError)
  | some t => .next (t.answerDevice .written)

/-! ### Which step comes next -/

/-- One step of one agent. -/
def perform (ev : Event) (s : State) : Host.Outcome State Fault Refusal :=
  match ev with
  | .engine k => engineTurn k s
  | .connOpen k => hostOpen k s
  | .process k chunk => hostProcess k chunk s
  | .connClose k => hostClose k s
  | .readFault k => hostReadFault k s
  | .devGet bank addr count => deviceGet bank addr count s
  | .devSetBits bank addr values => deviceSetBits bank addr values s
  | .devSetWords bank addr values => deviceSetWords bank addr values s

/-- The lowest slot whose engine drains, if any does. -/
def firstDraining (engines : List Engine) : Option Nat := engines.findIdx? fun e => decide (e.phase = .drain)

/-- The machine's step: the agenda's next event; with an empty agenda the lowest draining engine goes on, and where none drains
the block waits (log 1, log 2). -/
def nextStep (s : State) : Host.Outcome State Fault Refusal :=
  match s.agenda with
  | ev :: rest => perform ev { s with agenda := rest }
  | [] =>
    match firstDraining s.engines with
    | some k => engineTurn k s
    | none => .next s

/-- The state with `bytes` at the front of the active slot's reassembly buffer, that engine draining and its turn next (log 6). -/
def State.withRequestBytes (s : State) (bytes : List U8) : State :=
  { s.modifyEngine s.active (fun e => { e with rbuf := bytes ++ e.rbuf, phase := .drain, fault := false }) with
    agenda := .engine s.active :: s.agenda }

end Sys2Proof.Machine
end

