-- ==== Sys2Proof/Machine/Step.lean ====
section
/-! DEFINITION. The step of the machine, and the placing of an instruction where the next step fetches it. -/

namespace Sys2Proof.Machine

/-- One step of the machine: one step of one agent (10_state.md R8, 41_engine.md). -/
def step (s : State) : Host.Outcome State Fault Refusal := nextStep s

/-- `s` with the instruction of a table word placed where `step` fetches its next instruction (log 6). -/
def State.withFetchWord (s : State) (nbits w : Nat) : State := s.withRequestBytes (tableFrame nbits w)

end Sys2Proof.Machine
end

