-- ==== Sys2Proof/Safety.lean ====
section
/-! DEFINITION. What the claims speak of: the states the block can be in, the layout of a response on the wire, and one whole
`process()` call. -/

namespace Sys2Proof.Machine

/-! ### Legal states -/

/-- What holds of every engine at a step boundary: a faulted engine is idle with an empty buffer (41_engine.md R72, R73), an idle
engine holds no whole frame (R71), and the buffer is within `RBUF_CAP` (R70). -/
def Engine.wf (rbufCap : Option Nat) (e : Engine) : Bool :=
  (!e.fault || (decide (e.phase = .idle) && decide (e.rbuf = []))) &&
    (decide (e.phase = .drain) || decide (decode e.rbuf = .incomplete)) &&
    !overflows rbufCap e.rbuf.length

/-- A legal state: the memory canonical and within its capacities, the active slot a slot, every engine legal. -/
def State.wf (s : State) : Bool :=
  Memory.wf s.store && decide (s.active < s.engines.length) && s.engines.all (Engine.wf s.rbufCap)

/-! ### Responses on the wire -/

/-- The bytes of a frame with `protocol_id` 0, written out from the byte table of 30_encoding.md R43. -/
def adu (t : Tag) (fc : U8) (data : List U8) : List U8 :=
  let len := BitVec.ofNat 16 (2 + data.length)
  [t.tid.extractLsb' 8 8, t.tid.extractLsb' 0 8, 0x00, 0x00, len.extractLsb' 8 8, len.extractLsb' 0 8, t.uid, fc] ++ data

/-- The two bytes of each of `count` words from `addr` on, most significant byte first (20_memory.md R29, 30_encoding.md R50). -/
def wordsOnWire (b : Bank 16) (addr count : Nat) : List U8 :=
  (List.range count).flatMap fun i => [(b.cell (addr + i)).extractLsb' 8 8, (b.cell (addr + i)).extractLsb' 0 8]

/-- `p` holds the `count` bits `bit 0`, `bit 1`, ... packed eight to a byte, least significant first, and 0 above them
(20_memory.md R30). -/
def PackedBits (p : List U8) (count : Nat) (bit : Nat → Bit) : Prop :=
  p.length = (count + 7) / 8 ∧ ∀ i, i < 8 * p.length →
    (p.getD (i / 8) 0).getLsbD (i % 8) = if i < count then (bit i).getLsbD 0 else false

/-- The bank `c` is `b` with the `n` values `val 0`, `val 1`, ... written from `addr` on, and nothing else changed (20_memory.md R27). -/
def WrittenRange {w : Nat} (b c : Bank w) (addr n : Nat) (val : Nat → BitVec w) : Prop :=
  c.cap = b.cap ∧ c.wf = true ∧ ∀ a, c.cell a = if addr ≤ a ∧ a < addr + n then val (a - addr) else b.cell a

/-- The 9 bytes of an exception response with function code `fc` and code byte `code` (30_encoding.md R52). -/
def excAdu (t : Tag) (fc code : U8) : List U8 :=
  [t.tid.extractLsb' 8 8, t.tid.extractLsb' 0 8, 0x00, 0x00, 0x00, 0x03, t.uid, fc, code]


/-! ### One whole `process()` call -/

/-- How many bytes slot `k` buffers. -/
def State.buffered (s : State) (k : Nat) : Nat :=
  match s.engines[k]? with
  | none => 0
  | some e => e.rbuf.length

/-- The agenda of one `process(chunk)` call on slot `k` with no other agent's step inside it: the call, then as many turns of the
engine as its drain loop can need (41_engine.md R71: each turn but the last removes at least 8 bytes). -/
def callAgenda (s : State) (k : Nat) (chunk : List U8) : List Event :=
  .process k chunk :: List.replicate (s.buffered k + chunk.length + 1) (.engine k)

/-- The machine run over one whole `process(chunk)` call on slot `k` (41_engine.md R69, R71). -/
def processCall (k : Nat) (chunk : List U8) (s : State) : Host.Outcome State Fault Refusal :=
  Sys2Proof.core.run (callAgenda s k chunk).length { s with agenda := callAgenda s k chunk }

end Sys2Proof.Machine

namespace Sys2Proof

/-- The echoed header fields of an instruction (30_encoding.md R45). -/
def Instr.tag : Instr → Tag
  | .readCoils t _ | .readDiscreteInputs t _ | .readHoldingRegisters t _ | .readInputRegisters t _ => t
  | .writeSingleCoil t _ | .writeSingleRegister t _ => t
  | .writeMultipleCoils t _ | .writeMultipleRegisters t _ => t
  | .illegalFunction t _ _ => t

/-- The same request under another transaction id and unit id. -/
def Instr.withTag (u : Tag) : Instr → Instr
  | .readCoils _ ops => .readCoils u ops
  | .readDiscreteInputs _ ops => .readDiscreteInputs u ops
  | .readHoldingRegisters _ ops => .readHoldingRegisters u ops
  | .readInputRegisters _ ops => .readInputRegisters u ops
  | .writeSingleCoil _ ops => .writeSingleCoil u ops
  | .writeSingleRegister _ ops => .writeSingleRegister u ops
  | .writeMultipleCoils _ ops => .writeMultipleCoils u ops
  | .writeMultipleRegisters _ ops => .writeMultipleRegisters u ops
  | .illegalFunction _ fc d => .illegalFunction u fc d

end Sys2Proof
end

