-- ==== Sys2Proof/Certificates/Slice0/Obligations.lean ====
section
/-! DEFINITION. The statements for the provers. Each docstring names the rule or the section of spec/ it formalises, the decision of
the spec (D<n> of 92_eei_decisions.md) or the entry of the assumption log (log n) it rests on, if any. -/

open Sys2Proof Sys2Proof.Machine

/-! ### Frames, operands and function codes -/

/-- R59, R61, R53: the encoder's bytes decode to the instruction, whatever follows them. -/
def Obligations.EncodedRequestDecodesBack : Prop :=
  ∀ (i : Instr) (rest : List U8), i.wellFormed = true → decode (encode i ++ rest) = .request i rest

/-- R61, R64, R65: a decoded request is well formed, and its encoding is exactly the bytes it was decoded from. -/
def Obligations.DecodedRequestEncodesBack : Prop :=
  ∀ (buf : List U8) (i : Instr) (rest : List U8), decode buf = .request i rest →
    i.wellFormed = true ∧ encode i ++ rest = buf

/-- 40_frame_codec.md §3 (an inference the spec marks as derived): one whole frame, whatever its `protocol_id` and `length`,
decodes and encodes back to itself. -/
def Obligations.WholeFrameEncodesBack : Prop :=
  ∀ x : List U8, 2 ≤ (be16 (x.getD 4 0) (x.getD 5 0)).toNat → x.length = 6 + (be16 (x.getD 4 0) (x.getD 5 0)).toNat →
    ∃ f, decodeFrame x = some (f, []) ∧ encodeFrame f = x

/-- R60: `decode` answers INCOMPLETE exactly on a buffer of fewer than 8 bytes or, with L >= 2, of fewer than 8 + L - 2; and then
the engine's turn leaves the buffer as it was. -/
def Obligations.IncompleteFrameConsumesNothing : Prop :=
  (∀ buf : List U8, decodeFrame buf = none ↔
    buf.length < 8 ∨ (2 ≤ (be16 (buf.getD 4 0) (buf.getD 5 0)).toNat ∧
      buf.length < 8 + (be16 (buf.getD 4 0) (buf.getD 5 0)).toNat - 2)) ∧
  ∀ (s : State) (k : Nat) (e : Engine), s.engines[k]? = some e → e.phase = .drain → decodeFrame e.rbuf = none →
    engineTurn k s = .next { s with engines := s.engines.set k { e with phase := .idle } }

/-- R61: with a whole frame buffered, `decode` returns its fields and removes exactly 6 + L bytes. -/
def Obligations.WholeFrameIsRemoved : Prop :=
  ∀ (buf : List U8) (l : Nat), l = (be16 (buf.getD 4 0) (buf.getD 5 0)).toNat → 8 ≤ buf.length → 2 ≤ l →
    6 + l ≤ buf.length →
    decodeFrame buf = some
      ({ transactionId := be16 (buf.getD 0 0) (buf.getD 1 0), protocolId := be16 (buf.getD 2 0) (buf.getD 3 0),
         length := be16 (buf.getD 4 0) (buf.getD 5 0), unitId := buf.getD 6 0, functionCode := buf.getD 7 0,
         data := (buf.drop 8).take (l - 2) }, buf.drop (6 + l))

/-- 40_frame_codec.md §1, the spec's decision D2: a header whose `length` is 0 or 1 decodes with empty data and takes 8 bytes. -/
def Obligations.ShortLengthTakesHeaderOnly : Prop :=
  ∀ buf : List U8, 8 ≤ buf.length → (be16 (buf.getD 4 0) (buf.getD 5 0)).toNat < 2 →
    ∃ f, decodeFrame buf = some (f, buf.drop 8) ∧ f.data = [] ∧ f.length = be16 (buf.getD 4 0) (buf.getD 5 0) ∧
      decode buf = .invalidFrame f

/-- 40_frame_codec.md §2: of a frame that `decode` returns, validity is `protocol_id` 0 and 2 <= `length` <= 260: the third clause
of `is_valid` holds of it (an inference the spec marks as derived). -/
def Obligations.DecodedFrameValidity : Prop :=
  ∀ (buf rest : List U8) (f : Frame), decodeFrame buf = some (f, rest) →
    ((∃ i, decode buf = .request i rest) ↔ f.protocolId = 0 ∧ 2 ≤ f.length.toNat ∧ f.length.toNat ≤ 260) ∧
    (decode buf = .invalidFrame f ↔ ¬(f.protocolId = 0 ∧ 2 ≤ f.length.toNat ∧ f.length.toNat ≤ 260))

/-- 30_encoding.md §2 with the spec's decision D4: format RA and WS are exactly 4 data bytes, WM at least 5; any other data misfits. -/
def Obligations.OperandFormats : Prop :=
  ∀ d : List U8,
    (d.length = 4 →
      decodeRangeOps d = .fields (be16 (d.getD 0 0) (d.getD 1 0)) (be16 (d.getD 2 0) (d.getD 3 0)) ∧
      decodeSingleOps d = .fields (be16 (d.getD 0 0) (d.getD 1 0)) (be16 (d.getD 2 0) (d.getD 3 0))) ∧
    (d.length ≠ 4 → decodeRangeOps d = .misfit d ∧ decodeSingleOps d = .misfit d) ∧
    (5 ≤ d.length → decodeMultiOps d =
      .fields (be16 (d.getD 0 0) (d.getD 1 0)) (be16 (d.getD 2 0) (d.getD 3 0)) (d.getD 4 0) (d.drop 5)) ∧
    (d.length < 5 → decodeMultiOps d = .misfit d)

/-- R53, R54: each of the eight codes selects its own handler, every other code the default handler, by nothing but the code. -/
def Obligations.FunctionCodeSelectsHandler : Prop :=
  ∀ f : Frame,
    (f.functionCode = 0x01 → select f = .readCoils f.tag (decodeRangeOps f.data)) ∧
    (f.functionCode = 0x02 → select f = .readDiscreteInputs f.tag (decodeRangeOps f.data)) ∧
    (f.functionCode = 0x03 → select f = .readHoldingRegisters f.tag (decodeRangeOps f.data)) ∧
    (f.functionCode = 0x04 → select f = .readInputRegisters f.tag (decodeRangeOps f.data)) ∧
    (f.functionCode = 0x05 → select f = .writeSingleCoil f.tag (decodeSingleOps f.data)) ∧
    (f.functionCode = 0x06 → select f = .writeSingleRegister f.tag (decodeSingleOps f.data)) ∧
    (f.functionCode = 0x0F → select f = .writeMultipleCoils f.tag (decodeMultiOps f.data)) ∧
    (f.functionCode = 0x10 → select f = .writeMultipleRegisters f.tag (decodeMultiOps f.data)) ∧
    (supported f.functionCode = false → select f = .illegalFunction f.tag f.functionCode f.data)

/-- 42_read_functions.md §2, 43_write_functions.md §2 and §3, 41_engine.md §3: the worked examples' frames decode to what they say. -/
def Obligations.SampleFramesDecode : Prop :=
  decode [0x00, 0x01, 0x00, 0x00, 0x00, 0x06, 0x01, 0x01, 0x00, 0x00, 0x00, 0x0A] =
    .request (.readCoils ⟨0x0001, 0x01⟩ (.fields 0x0000 0x000A)) [] ∧
  decode [0x00, 0x05, 0x00, 0x00, 0x00, 0x06, 0x11, 0x03, 0x00, 0x00, 0x00, 0x02, 0xAA] =
    .request (.readHoldingRegisters ⟨0x0005, 0x11⟩ (.fields 0x0000 0x0002)) [0xAA] ∧
  decode [0x00, 0x0A, 0x00, 0x00, 0x00, 0x06, 0x01, 0x05, 0x00, 0x03, 0xFF, 0x00] =
    .request (.writeSingleCoil ⟨0x000A, 0x01⟩ (.fields 0x0003 0xFF00)) [] ∧
  decode [0x00, 0x0D, 0x00, 0x00, 0x00, 0x0B, 0x01, 0x10, 0x00, 0x10, 0x00, 0x02, 0x04, 0x00, 0x0A, 0x01, 0x02] =
    .request (.writeMultipleRegisters ⟨0x000D, 0x01⟩ (.fields 0x0010 0x0002 0x04 [0x00, 0x0A, 0x01, 0x02])) [] ∧
  decode [0x00, 0x2A, 0x00, 0x00, 0x00, 0x02, 0x01, 0x07] = .request (.illegalFunction ⟨0x002A, 0x01⟩ 0x07 []) []

/-! ### The data banks -/

/-- R26: `B.get` fails exactly out of range, and else returns the `count` cells from `addr` on in ascending order. -/
def Obligations.BankGetReturnsCells : Prop :=
  ∀ (w : Nat) (b : Bank w) (addr count : Int),
    (¬(0 ≤ addr ∧ 0 ≤ count ∧ addr + count ≤ b.cap) → b.get addr count = none) ∧
    (0 ≤ addr ∧ 0 ≤ count ∧ addr + count ≤ b.cap →
      ∃ v, b.get addr count = some v ∧ (v.length : Int) = count ∧
        ∀ i, i < v.length → v[i]? = some (b.cell (addr.toNat + i)))

/-- R27: `B.set` fails exactly out of range, and else overwrites exactly the cells of its range, in a canonical bank. -/
def Obligations.BankSetWritesCells : Prop :=
  ∀ (w : Nat) (b : Bank w) (addr : Int) (values : List (BitVec w)), b.wf = true →
    (¬(0 ≤ addr ∧ addr + values.length ≤ b.cap) → b.set addr values = none) ∧
    (0 ≤ addr ∧ addr + values.length ≤ b.cap →
      ∃ c, b.set addr values = some c ∧ WrittenRange b c addr.toNat values.length fun i => values.getD i 0#w)

/-- R34: a read request leaves every bank as it was, and writing the same values again changes nothing. -/
def Obligations.ReadsPureWritesIdempotent : Prop :=
  (∀ (s t : State) (tag : Tag) (ops : RangeOps),
    (exec (.readCoils tag ops) s = .next t ∨ exec (.readDiscreteInputs tag ops) s = .next t ∨
      exec (.readHoldingRegisters tag ops) s = .next t ∨ exec (.readInputRegisters tag ops) s = .next t) →
    t.store = s.store) ∧
  ∀ (w : Nat) (b c : Bank w) (addr : Int) (values : List (BitVec w)), b.wf = true → b.set addr values = some c →
    c.set addr values = some c

/-- 20_memory.md §3 with the spec's decision D6: bit i of the requested range is bit i % 8 of byte i / 8, the bits above are 0, and
`unpack` reads back what `pack` wrote. -/
def Obligations.PackedBitOrder : Prop :=
  ∀ v : List Bit, PackedBits (pack v) v.length (fun i => v.getD i 0) ∧ unpack (pack v) v.length = v

/-- R10: a bank has the capacity it was built with, at most 0x10000, in every later state; no cell at or above it exists. -/
def Obligations.CapacitiesNeverChange : Prop :=
  (∀ p : Params, p.wf = true →
    (State.initial p).store.di.cap = p.capDi ∧ (State.initial p).store.co.cap = p.capCo ∧
    (State.initial p).store.ir.cap = p.capIr ∧ (State.initial p).store.hr.cap = p.capHr ∧
    p.capDi ≤ 0x10000 ∧ p.capCo ≤ 0x10000 ∧ p.capIr ≤ 0x10000 ∧ p.capHr ≤ 0x10000) ∧
  (∀ s t : State, step s = .next t →
    t.store.di.cap = s.store.di.cap ∧ t.store.co.cap = s.store.co.cap ∧ t.store.ir.cap = s.store.ir.cap ∧
    t.store.hr.cap = s.store.hr.cap) ∧
  ∀ (w : Nat) (b : Bank w) (a : Nat), (b.get a 1 = none ↔ b.cap ≤ a)

/-- R11: no function code writes the discrete inputs or the input registers, in any step; the device may. -/
def Obligations.OnlyDeviceWritesInputs : Prop :=
  (∀ (i : Instr) (s t : State), exec i s = .next t → t.store.di = s.store.di ∧ t.store.ir = s.store.ir) ∧
  (∀ s t : State, step s = .next t →
    (t.store.di = s.store.di ∨ ∃ addr vs rest, s.agenda = .devSetBits .di addr vs :: rest) ∧
    (t.store.ir = s.store.ir ∨ ∃ addr vs rest, s.agenda = .devSetWords .ir addr vs :: rest)) ∧
  (∀ (s : State) (addr : Int) (vs : List Bit) (rest : List Event) (c : Bank 1),
    s.agenda = .devSetBits .di addr vs :: rest → s.store.di.set addr vs = some c →
    ∃ t, step s = .next t ∧ t.store = { s.store with di := c }) ∧
  ∀ (s : State) (addr : Int) (vs : List U16) (rest : List Event) (c : Bank 16),
    s.agenda = .devSetWords .ir addr vs :: rest → s.store.ir.set addr vs = some c →
    ∃ t, step s = .next t ∧ t.store = { s.store with ir := c }

/-! ### The read functions -/

/-- 42_read_functions.md §2, READ_COILS and READ_DISCRETE_INPUTS (padding bits 0 by the spec's decision D6): a request in range is
answered with the byte count and the packed cells; nothing but the active slot's log changes. -/
def Obligations.ReadBitsAnswer : Prop :=
  ∀ (s : State) (t : Tag) (addr count : U16), s.active < s.engines.length → 1 ≤ count.toNat → count.toNat ≤ 2000 →
    (addr.toNat + count.toNat ≤ s.store.co.cap →
      ∃ p, PackedBits p count.toNat (fun i => s.store.co.cell (addr.toNat + i)) ∧
        exec (.readCoils t (.fields addr count)) s = .next (s.send (adu t 0x01 (BitVec.ofNat 8 p.length :: p)))) ∧
    (addr.toNat + count.toNat ≤ s.store.di.cap →
      ∃ p, PackedBits p count.toNat (fun i => s.store.di.cell (addr.toNat + i)) ∧
        exec (.readDiscreteInputs t (.fields addr count)) s = .next (s.send (adu t 0x02 (BitVec.ofNat 8 p.length :: p))))

/-- 42_read_functions.md §2, READ_HOLDING_REGISTERS and READ_INPUT_REGISTERS: a request in range is answered with the byte count and
the big-endian words; nothing but the active slot's log changes. -/
def Obligations.ReadWordsAnswer : Prop :=
  ∀ (s : State) (t : Tag) (addr count : U16), s.active < s.engines.length → 1 ≤ count.toNat → count.toNat ≤ 125 →
    (addr.toNat + count.toNat ≤ s.store.hr.cap →
      exec (.readHoldingRegisters t (.fields addr count)) s =
        .next (s.send (adu t 0x03 (BitVec.ofNat 8 (2 * count.toNat) :: wordsOnWire s.store.hr addr.toNat count.toNat)))) ∧
    (addr.toNat + count.toNat ≤ s.store.ir.cap →
      exec (.readInputRegisters t (.fields addr count)) s =
        .next (s.send (adu t 0x04 (BitVec.ofNat 8 (2 * count.toNat) :: wordsOnWire s.store.ir addr.toNat count.toNat))))

/-- 42_read_functions.md §1 and 60_exceptions.md §1, with the spec's decisions D4 (data that misfits) and D5 (the check order): the
four read functions' exceptions; nothing but the active slot's log changes. -/
def Obligations.ReadsRefuse : Prop :=
  ∀ (s : State) (t : Tag), s.active < s.engines.length →
    (∀ d, exec (.readCoils t (.misfit d)) s = .next (s.send (excAdu t 0x81 0x03)) ∧
      exec (.readDiscreteInputs t (.misfit d)) s = .next (s.send (excAdu t 0x82 0x03)) ∧
      exec (.readHoldingRegisters t (.misfit d)) s = .next (s.send (excAdu t 0x83 0x03)) ∧
      exec (.readInputRegisters t (.misfit d)) s = .next (s.send (excAdu t 0x84 0x03))) ∧
    ∀ addr count : U16,
      (count.toNat = 0 ∨ 2000 < count.toNat →
        exec (.readCoils t (.fields addr count)) s = .next (s.send (excAdu t 0x81 0x03)) ∧
        exec (.readDiscreteInputs t (.fields addr count)) s = .next (s.send (excAdu t 0x82 0x03))) ∧
      (count.toNat = 0 ∨ 125 < count.toNat →
        exec (.readHoldingRegisters t (.fields addr count)) s = .next (s.send (excAdu t 0x83 0x03)) ∧
        exec (.readInputRegisters t (.fields addr count)) s = .next (s.send (excAdu t 0x84 0x03))) ∧
      (1 ≤ count.toNat ∧ count.toNat ≤ 2000 →
        (s.store.co.cap < addr.toNat + count.toNat →
          exec (.readCoils t (.fields addr count)) s = .next (s.send (excAdu t 0x81 0x02))) ∧
        (s.store.di.cap < addr.toNat + count.toNat →
          exec (.readDiscreteInputs t (.fields addr count)) s = .next (s.send (excAdu t 0x82 0x02)))) ∧
      (1 ≤ count.toNat ∧ count.toNat ≤ 125 →
        (s.store.hr.cap < addr.toNat + count.toNat →
          exec (.readHoldingRegisters t (.fields addr count)) s = .next (s.send (excAdu t 0x83 0x02))) ∧
        (s.store.ir.cap < addr.toNat + count.toNat →
          exec (.readInputRegisters t (.fields addr count)) s = .next (s.send (excAdu t 0x84 0x02))))

/-! ### The write functions -/

/-- 43_write_functions.md §2, WRITE_SINGLE_COIL: 0xFF00 sets and 0x0000 clears the one coil, and the request is echoed; no other cell
and nothing but the active slot's log changes. -/
def Obligations.WriteSingleCoilAnswers : Prop :=
  ∀ (s : State) (t : Tag) (addr : U16), s.active < s.engines.length → s.store.co.wf = true → addr.toNat < s.store.co.cap →
    (∃ c, WrittenRange s.store.co c addr.toNat 1 (fun _ => 1) ∧
      exec (.writeSingleCoil t (.fields addr 0xFF00)) s =
        .next ((s.withCo c).send (adu t 0x05 [addr.extractLsb' 8 8, addr.extractLsb' 0 8, 0xFF, 0x00]))) ∧
    (∃ c, WrittenRange s.store.co c addr.toNat 1 (fun _ => 0) ∧
      exec (.writeSingleCoil t (.fields addr 0x0000)) s =
        .next ((s.withCo c).send (adu t 0x05 [addr.extractLsb' 8 8, addr.extractLsb' 0 8, 0x00, 0x00])))

/-- 43_write_functions.md §2, WRITE_SINGLE_REGISTER: any value is written to the one register, and the request is echoed; no other cell
and nothing but the active slot's log changes. -/
def Obligations.WriteSingleRegisterAnswers : Prop :=
  ∀ (s : State) (t : Tag) (addr value : U16), s.active < s.engines.length → s.store.hr.wf = true →
    addr.toNat < s.store.hr.cap →
    ∃ c, WrittenRange s.store.hr c addr.toNat 1 (fun _ => value) ∧
      exec (.writeSingleRegister t (.fields addr value)) s =
        .next ((s.withHr c).send (adu t 0x06
          [addr.extractLsb' 8 8, addr.extractLsb' 0 8, value.extractLsb' 8 8, value.extractLsb' 0 8]))

/-- 43_write_functions.md §1 and §2 and 60_exceptions.md §1, with the spec's decisions D4 and D5: the single writes' exceptions; no
cell and nothing but the active slot's log changes. -/
def Obligations.SingleWritesRefuse : Prop :=
  ∀ (s : State) (t : Tag), s.active < s.engines.length →
    (∀ d, exec (.writeSingleCoil t (.misfit d)) s = .next (s.send (excAdu t 0x85 0x03)) ∧
      exec (.writeSingleRegister t (.misfit d)) s = .next (s.send (excAdu t 0x86 0x03))) ∧
    ∀ addr value : U16,
      (value ≠ 0xFF00 ∧ value ≠ 0x0000 →
        exec (.writeSingleCoil t (.fields addr value)) s = .next (s.send (excAdu t 0x85 0x03))) ∧
      (s.store.co.cap ≤ addr.toNat ∧ (value = 0xFF00 ∨ value = 0x0000) →
        exec (.writeSingleCoil t (.fields addr value)) s = .next (s.send (excAdu t 0x85 0x02))) ∧
      (s.store.hr.cap ≤ addr.toNat →
        exec (.writeSingleRegister t (.fields addr value)) s = .next (s.send (excAdu t 0x86 0x02)))

/-- 43_write_functions.md §3, WRITE_MULTIPLE_COILS (payload bits above `count` ignored by the spec's decision D7): coil `addr + i` takes
bit i % 8 of payload byte i / 8, and `addr` and `count` are echoed; no other cell and nothing but the active slot's log changes. -/
def Obligations.WriteMultipleCoilsAnswers : Prop :=
  ∀ (s : State) (t : Tag) (addr count : U16) (bc : U8) (payload : List U8), s.active < s.engines.length →
    s.store.co.wf = true → 1 ≤ count.toNat → count.toNat ≤ 1968 → bc.toNat = (count.toNat + 7) / 8 →
    payload.length = bc.toNat → addr.toNat + count.toNat ≤ s.store.co.cap →
    ∃ c, WrittenRange s.store.co c addr.toNat count.toNat
        (fun i => BitVec.ofBool ((payload.getD (i / 8) 0).getLsbD (i % 8))) ∧
      exec (.writeMultipleCoils t (.fields addr count bc payload)) s =
        .next ((s.withCo c).send (adu t 0x0F
          [addr.extractLsb' 8 8, addr.extractLsb' 0 8, count.extractLsb' 8 8, count.extractLsb' 0 8]))

/-- 43_write_functions.md §3, WRITE_MULTIPLE_REGISTERS: register `addr + i` takes the big-endian word i of the payload, and `addr` and
`count` are echoed; no other cell and nothing but the active slot's log changes. -/
def Obligations.WriteMultipleRegistersAnswers : Prop :=
  ∀ (s : State) (t : Tag) (addr count : U16) (bc : U8) (payload : List U8), s.active < s.engines.length →
    s.store.hr.wf = true → 1 ≤ count.toNat → count.toNat ≤ 123 → bc.toNat = 2 * count.toNat →
    payload.length = bc.toNat → addr.toNat + count.toNat ≤ s.store.hr.cap →
    ∃ c, WrittenRange s.store.hr c addr.toNat count.toNat
        (fun i => be16 (payload.getD (2 * i) 0) (payload.getD (2 * i + 1) 0)) ∧
      exec (.writeMultipleRegisters t (.fields addr count bc payload)) s =
        .next ((s.withHr c).send (adu t 0x10
          [addr.extractLsb' 8 8, addr.extractLsb' 0 8, count.extractLsb' 8 8, count.extractLsb' 0 8]))

/-- 43_write_functions.md §1 and §3 and 60_exceptions.md §1, with the spec's decisions D4 and D5: the multiple writes' exceptions; no
cell and nothing but the active slot's log changes. -/
def Obligations.MultipleWritesRefuse : Prop :=
  ∀ (s : State) (t : Tag), s.active < s.engines.length →
    (∀ d, exec (.writeMultipleCoils t (.misfit d)) s = .next (s.send (excAdu t 0x8F 0x03)) ∧
      exec (.writeMultipleRegisters t (.misfit d)) s = .next (s.send (excAdu t 0x90 0x03))) ∧
    ∀ (addr count : U16) (bc : U8) (payload : List U8),
      (count.toNat = 0 ∨ 1968 < count.toNat ∨ bc.toNat ≠ (count.toNat + 7) / 8 ∨ payload.length ≠ bc.toNat →
        exec (.writeMultipleCoils t (.fields addr count bc payload)) s = .next (s.send (excAdu t 0x8F 0x03))) ∧
      (count.toNat = 0 ∨ 123 < count.toNat ∨ bc.toNat ≠ 2 * count.toNat ∨ payload.length ≠ bc.toNat →
        exec (.writeMultipleRegisters t (.fields addr count bc payload)) s = .next (s.send (excAdu t 0x90 0x03))) ∧
      (1 ≤ count.toNat ∧ count.toNat ≤ 1968 ∧ bc.toNat = (count.toNat + 7) / 8 ∧ payload.length = bc.toNat ∧
        s.store.co.cap < addr.toNat + count.toNat →
        exec (.writeMultipleCoils t (.fields addr count bc payload)) s = .next (s.send (excAdu t 0x8F 0x02))) ∧
      (1 ≤ count.toNat ∧ count.toNat ≤ 123 ∧ bc.toNat = 2 * count.toNat ∧ payload.length = bc.toNat ∧
        s.store.hr.cap < addr.toNat + count.toNat →
        exec (.writeMultipleRegisters t (.fields addr count bc payload)) s = .next (s.send (excAdu t 0x90 0x02)))

/-- 43_write_functions.md §4 (a law the spec marks as derived): registers written by one request are read back by the next. -/
def Obligations.WrittenRegistersReadBack : Prop :=
  ∀ (s : State) (t u : Tag) (addr count : U16) (bc : U8) (payload : List U8), s.active < s.engines.length →
    s.store.hr.wf = true → 1 ≤ count.toNat → count.toNat ≤ 123 → bc.toNat = 2 * count.toNat →
    payload.length = bc.toNat → addr.toNat + count.toNat ≤ s.store.hr.cap →
    ∃ s', exec (.writeMultipleRegisters t (.fields addr count bc payload)) s = .next s' ∧
      exec (.readHoldingRegisters u (.fields addr count)) s' = .next (s'.send (adu u 0x03 (bc :: payload)))

/-- 43_write_functions.md §4 (a law the spec marks as derived): coils written by one request are read back by the next. -/
def Obligations.WrittenCoilsReadBack : Prop :=
  ∀ (s : State) (t u : Tag) (addr count : U16) (bc : U8) (payload : List U8), s.active < s.engines.length →
    s.store.co.wf = true → 1 ≤ count.toNat → count.toNat ≤ 1968 → bc.toNat = (count.toNat + 7) / 8 →
    payload.length = bc.toNat → addr.toNat + count.toNat ≤ s.store.co.cap →
    ∃ s' p, exec (.writeMultipleCoils t (.fields addr count bc payload)) s = .next s' ∧
      PackedBits p count.toNat (fun i => BitVec.ofBool ((payload.getD (i / 8) 0).getLsbD (i % 8))) ∧
      exec (.readCoils u (.fields addr count)) s' = .next (s'.send (adu u 0x01 (bc :: p)))

/-! ### The default handler and responses in general -/

/-- R76: the default handler answers every code, whatever the data, with the exception ILLEGAL_FUNCTION, and no bank operation. -/
def Obligations.IllegalFunctionAnswers : Prop :=
  ∀ (s : State) (t : Tag) (fc : U8) (d : List U8), s.active < s.engines.length →
    exec (.illegalFunction t fc d) s = .next (s.send (excAdu t (fc ||| 0x80) 0x01))

/-- 41_engine.md §3: every request, whatever its operands, gets exactly one response, appended to the active slot's log; no other slot,
no buffer, no phase and no fault bit changes, and neither do the parameters, the agenda or the other logs. -/
def Obligations.EveryRequestAnsweredOnce : Prop :=
  ∀ (i : Instr) (s : State), s.active < s.engines.length →
    ∃ (bytes : List U8) (d : DataStore), exec i s = .next
      { s with store := d, engines := s.engines.modify s.active fun e => { e with out := e.out ++ [.frame bytes] } }

/-- 60_exceptions.md §1 and §2, 30_encoding.md §5: a response is either an exception frame with code 01, 02 or 03 and a store exactly as
before, or a success frame that repeats the request's own supported code (bit 7 clear). -/
def Obligations.ResponseIsExceptionOrSuccess : Prop :=
  ∀ (i : Instr) (s t : State), i.wellFormed = true → exec i s = .next t →
    (∃ c ∈ [(0x01 : U8), 0x02, 0x03], t = s.send (excAdu i.tag (i.toFrame.functionCode ||| 0x80) c)) ∨
    (supported i.toFrame.functionCode = true ∧ i.toFrame.functionCode.getLsbD 7 = false ∧
      ∃ data, t = ({ s with store := t.store } : State).send (adu i.tag i.toFrame.functionCode data))

/-- 30_encoding.md §1, 40_frame_codec.md §4 and §5: a response is itself one whole structurally valid frame that carries the request's
`transaction_id` and `unit_id`. -/
def Obligations.ResponseIsValidFrame : Prop :=
  ∀ (i : Instr) (s t : State) (e e' : Engine), i.wellFormed = true → exec i s = .next t → s.engines[s.active]? = some e →
    t.engines[s.active]? = some e' →
    ∃ bytes f, e'.out = e.out ++ [.frame bytes] ∧ decodeFrame bytes = some (f, []) ∧ f.isValid = true ∧
      f.transactionId = i.tag.tid ∧ f.unitId = i.tag.uid

/-- 60_exceptions.md §3 (with the spec's decision D17): the transaction id and unit id of a request select nothing: under any other tag
it makes the same store, and its response differs in those fields only. -/
def Obligations.TagSelectsNothing : Prop :=
  ∀ (i : Instr) (u : Tag) (s : State), i.wellFormed = true → s.active < s.engines.length →
    ∃ fc data d, exec i s = .next (({ s with store := d } : State).send (adu i.tag fc data)) ∧
      exec (i.withTag u) s = .next (({ s with store := d } : State).send (adu u fc data))

/-- 10_state.md §6 (with the spec's decision D18): a response and the new store depend on the request and the store alone: on no log, no
buffer, no other slot. -/
def Obligations.ResponseDependsOnStoreOnly : Prop :=
  ∀ (i : Instr) (s t : State), s.store = t.store → s.active < s.engines.length → t.active < t.engines.length →
    ∃ bytes d, exec i s = .next (({ s with store := d } : State).send bytes) ∧
      exec i t = .next (({ t with store := d } : State).send bytes)

/-! ### The step: engines -/

/-- 41_engine.md §2 and §3 (log 1, log 3; one step per frame by the spec's decision D12): a draining engine whose buffer begins with a
valid request runs it. -/
def Obligations.StepRunsDecodedInstruction : Prop :=
  ∀ (s : State) (k : Nat) (rest : List Event) (e : Engine) (i : Instr) (r : List U8), s.agenda = .engine k :: rest →
    s.engines[k]? = some e → e.phase = .drain → decode e.rbuf = .request i r →
    step s = exec i { s with agenda := rest, active := k, engines := s.engines.set k { e with rbuf := r } }

/-- The model's own scheduling (log 2): with an empty agenda the lowest draining engine goes on, and where none drains nothing changes. -/
def Obligations.EmptyAgendaStep : Prop :=
  ∀ s : State, s.agenda = [] →
    ((∀ e ∈ s.engines, e.phase = .idle) → step s = .next s) ∧
    ∀ k, (∃ e, s.engines[k]? = some e ∧ e.phase = .drain) →
      (∀ (j : Nat) (e : Engine), j < k → s.engines[j]? = some e → e.phase = .idle) →
      step s = step { s with agenda := [.engine k] }

/-- 41_engine.md §2, the spec's decision D1: a frame that fails `is_valid` is not dispatched and faults its connection: the buffer is
discarded, nothing is sent, no bank changes. -/
def Obligations.InvalidFrameFaultsConnection : Prop :=
  ∀ (s : State) (k : Nat) (rest : List Event) (e : Engine) (f : Frame), s.agenda = .engine k :: rest →
    s.engines[k]? = some e → e.phase = .drain → decode e.rbuf = .invalidFrame f →
    step s = .next { s with
      agenda := rest, engines := s.engines.set k { rbuf := [], phase := .idle, fault := true, out := e.out } }

/-- 41_engine.md §2 and log 10: an engine that finds no whole frame goes idle and keeps its bytes; an idle engine waits. -/
def Obligations.EngineWaitsWithoutFrame : Prop :=
  ∀ (s : State) (k : Nat) (rest : List Event) (e : Engine), s.agenda = .engine k :: rest → s.engines[k]? = some e →
    (e.phase = .idle → step s = .next { s with agenda := rest }) ∧
    (e.phase = .drain → decode e.rbuf = .incomplete →
      step s = .next { s with agenda := rest, engines := s.engines.set k { e with phase := .idle } })

/-! ### The step: host and device -/

/-- 41_engine.md §1 (with the spec's decisions D10 and D21): a chunk delivered to an idle engine is appended and drained; to a faulted
one it is discarded; one that does not fit `RBUF_CAP` faults the connection. -/
def Obligations.ProcessTakesChunk : Prop :=
  ∀ (s : State) (k : Nat) (chunk : List U8) (rest : List Event) (e : Engine), s.agenda = .process k chunk :: rest →
    s.engines[k]? = some e → e.phase = .idle →
    (e.fault = true → step s = .next { s with agenda := rest }) ∧
    (e.fault = false → (∀ cap, s.rbufCap = some cap → e.rbuf.length + chunk.length ≤ cap) →
      step s = .next { s with
        agenda := rest, engines := s.engines.set k { e with rbuf := e.rbuf ++ chunk, phase := .drain } }) ∧
    (e.fault = false → (∃ cap, s.rbufCap = some cap ∧ cap < e.rbuf.length + chunk.length) →
      step s = .next { s with
        agenda := rest, engines := s.engines.set k { rbuf := [], phase := .idle, fault := true, out := e.out } })

/-- 70_reset_and_hazards.md §1 (close at any step boundary by the spec's decision D19; no open of a slot in use by log 7): a close
puts the slot in its reset state and is logged; an open of a new or closed slot leaves it in its reset state; a slot that drains,
holds bytes or is faulted has no open; nothing else changes. -/
def Obligations.OpenAndCloseResetSlot : Prop :=
  ∀ (s : State) (k : Nat) (rest : List Event) (e : Engine), s.engines[k]? = some e →
    (s.agenda = .connClose k :: rest → step s = .next { s with
      agenda := rest,
      engines := s.engines.set k { rbuf := [], phase := .idle, fault := false, out := e.out ++ [.close] } }) ∧
    (s.agenda = .connOpen k :: rest → e.rbuf = [] ∧ e.phase = .idle ∧ e.fault = false →
      step s = .next { s with
        agenda := rest, engines := s.engines.set k { rbuf := [], phase := .idle, fault := false, out := e.out } }) ∧
    (s.agenda = .connOpen k :: rest → e.rbuf ≠ [] ∨ e.phase = .drain ∨ e.fault = true → step s = .fault .openWithoutClose)

/-- 60_exceptions.md §5 (reply log: log 11): the host's read of the fault bit returns it and changes nothing else. -/
def Obligations.HostReadsFaultBit : Prop :=
  ∀ (s : State) (k : Nat) (rest : List Event) (e : Engine), s.agenda = .readFault k :: rest → s.engines[k]? = some e →
    step s = .next { s with agenda := rest, hostOut := s.hostOut ++ [(k, e.fault)] }

/-- 60_exceptions.md §5 (integers as operands: log 12; reply log: log 11): the device's get on any bank returns its cells or
AddressRangeError and changes nothing else. -/
def Obligations.DeviceGetReturnsCells : Prop :=
  ∀ (s : State) (addr count : Int) (rest : List Event),
    let inside (cap : Nat) : Prop := 0 ≤ addr ∧ 0 ≤ count ∧ addr + count ≤ cap
    let answered (r : DeviceReply) : Host.Outcome State Fault Refusal :=
      .next { s with agenda := rest, deviceOut := s.deviceOut ++ [r] }
    (s.agenda = .devGet .di addr count :: rest →
      (inside s.store.di.cap →
        step s = answered (.bits ((List.range count.toNat).map fun i => s.store.di.cell (addr.toNat + i)))) ∧
      (¬inside s.store.di.cap → step s = answered .addressRangeError)) ∧
    (s.agenda = .devGet .co addr count :: rest →
      (inside s.store.co.cap →
        step s = answered (.bits ((List.range count.toNat).map fun i => s.store.co.cell (addr.toNat + i)))) ∧
      (¬inside s.store.co.cap → step s = answered .addressRangeError)) ∧
    (s.agenda = .devGet .ir addr count :: rest →
      (inside s.store.ir.cap →
        step s = answered (.words ((List.range count.toNat).map fun i => s.store.ir.cell (addr.toNat + i)))) ∧
      (¬inside s.store.ir.cap → step s = answered .addressRangeError)) ∧
    (s.agenda = .devGet .hr addr count :: rest →
      (inside s.store.hr.cap →
        step s = answered (.words ((List.range count.toNat).map fun i => s.store.hr.cell (addr.toNat + i)))) ∧
      (¬inside s.store.hr.cap → step s = answered .addressRangeError))

/-- 60_exceptions.md §5 (integers as operands: log 12; reply log: log 11): the device's set on a bit bank writes exactly its range, or
returns AddressRangeError and writes nothing. -/
def Obligations.DeviceSetWritesBits : Prop :=
  ∀ (s : State) (addr : Int) (vs : List Bit) (rest : List Event), Memory.wf s.store = true →
    let inside (cap : Nat) : Prop := 0 ≤ addr ∧ addr + vs.length ≤ cap
    let failed : Host.Outcome State Fault Refusal :=
      .next { s with agenda := rest, deviceOut := s.deviceOut ++ [.addressRangeError] }
    (s.agenda = .devSetBits .di addr vs :: rest →
      (inside s.store.di.cap → ∃ c, WrittenRange s.store.di c addr.toNat vs.length (fun i => vs.getD i 0) ∧
        step s = .next { s with
          agenda := rest, store := { s.store with di := c }, deviceOut := s.deviceOut ++ [.written] }) ∧
      (¬inside s.store.di.cap → step s = failed)) ∧
    (s.agenda = .devSetBits .co addr vs :: rest →
      (inside s.store.co.cap → ∃ c, WrittenRange s.store.co c addr.toNat vs.length (fun i => vs.getD i 0) ∧
        step s = .next { s with
          agenda := rest, store := { s.store with co := c }, deviceOut := s.deviceOut ++ [.written] }) ∧
      (¬inside s.store.co.cap → step s = failed))

/-- 60_exceptions.md §5 (integers as operands: log 12; reply log: log 11): the device's set on a word bank writes exactly its range, or
returns AddressRangeError and writes nothing. -/
def Obligations.DeviceSetWritesWords : Prop :=
  ∀ (s : State) (addr : Int) (vs : List U16) (rest : List Event), Memory.wf s.store = true →
    let inside (cap : Nat) : Prop := 0 ≤ addr ∧ addr + vs.length ≤ cap
    let failed : Host.Outcome State Fault Refusal :=
      .next { s with agenda := rest, deviceOut := s.deviceOut ++ [.addressRangeError] }
    (s.agenda = .devSetWords .ir addr vs :: rest →
      (inside s.store.ir.cap → ∃ c, WrittenRange s.store.ir c addr.toNat vs.length (fun i => vs.getD i 0) ∧
        step s = .next { s with
          agenda := rest, store := { s.store with ir := c }, deviceOut := s.deviceOut ++ [.written] }) ∧
      (¬inside s.store.ir.cap → step s = failed)) ∧
    (s.agenda = .devSetWords .hr addr vs :: rest →
      (inside s.store.hr.cap → ∃ c, WrittenRange s.store.hr c addr.toNat vs.length (fun i => vs.getD i 0) ∧
        step s = .next { s with
          agenda := rest, store := { s.store with hr := c }, deviceOut := s.deviceOut ++ [.written] }) ∧
      (¬inside s.store.hr.cap → step s = failed))

/-! ### Rules of the whole machine -/

/-- The legal states (Safety.lean) are closed under steps: the memory stays canonical and within its capacities, the active slot stays
a slot, a faulted engine stays idle and empty, an idle engine holds no whole frame, every buffer stays within `RBUF_CAP`. -/
def Obligations.StepKeepsLegalState : Prop :=
  ∀ s t : State, s.wf = true → step s = .next t → t.wf = true

/-- 10_state.md §7: the machine built with any parameters in range is a legal state, and so is the reset state. -/
def Obligations.InitialStateIsLegal : Prop :=
  (∀ p : Params, p.wf = true → (State.initial p).wf = true) ∧ State.reset.wf = true

/-- 10_state.md §7 with the spec's decision D9 (fill value 0): what building the machine leaves, for every parameter; and the default
capacities at reset. The number of slots at reset is the model's choice (log 4) and not stated here. -/
def Obligations.InitialStateValues : Prop :=
  (∀ (p : Params) (a : Nat),
    (State.initial p).store.di.cell a = 0 ∧ (State.initial p).store.co.cell a = 0 ∧
    (State.initial p).store.ir.cell a = 0 ∧ (State.initial p).store.hr.cell a = 0 ∧
    (State.initial p).rbufCap = p.rbufCap ∧ (State.initial p).engines.length = p.nConn ∧
    (a < p.nConn → (State.initial p).engines[a]? = some { rbuf := [], phase := .idle, fault := false, out := [] })) ∧
  State.reset.store.di.cap = 0x10000 ∧ State.reset.store.co.cap = 0x10000 ∧ State.reset.store.ir.cap = 0x10000 ∧
  State.reset.store.hr.cap = 0x10000 ∧ State.reset.rbufCap = none

/-- 60_exceptions.md §4, 10_state.md §1: a step of one connection, of its host or of its engine, leaves every other connection's engine
as it was; a device's step leaves every engine as it was. -/
def Obligations.EnginesAreIsolated : Prop :=
  ∀ (s t : State) (ev : Event) (rest : List Event), s.agenda = ev :: rest → step s = .next t →
    (∀ j k : Nat, j ≠ k →
      (ev = .engine k ∨ ev = .connOpen k ∨ ev = .connClose k ∨ ev = .readFault k ∨ ∃ chunk, ev = .process k chunk) →
      t.engines[j]? = s.engines[j]?) ∧
    ((∃ b a n, ev = .devGet b a n) ∨ (∃ b a v, ev = .devSetBits b a v) ∨ (∃ b a v, ev = .devSetWords b a v) →
      t.engines = s.engines)

/-- R14: over any step a reassembly buffer is as it was, or has grown at its end by a delivered chunk, or has lost at its front exactly
what a successful decode removes, or is emptied by a connection fault or a connection close. -/
def Obligations.BufferChangesOnlyAsListed : Prop :=
  ∀ (s t : State) (k : Nat) (e e' : Engine), step s = .next t → s.engines[k]? = some e → t.engines[k]? = some e' →
    e'.rbuf = e.rbuf ∨
    (∃ chunk rest, s.agenda = .process k chunk :: rest ∧ e'.rbuf = e.rbuf ++ chunk) ∨
    (∃ f, decodeFrame e.rbuf = some (f, e'.rbuf)) ∨
    (e'.rbuf = [] ∧ (e'.fault = true ∨ ∃ rest, s.agenda = .connClose k :: rest))

/-- 10_state.md §3 and §7: the log of a slot only grows, by at most one entry a step. -/
def Obligations.OutputLogOnlyGrows : Prop :=
  ∀ (s t : State) (k : Nat) (e e' : Engine), step s = .next t → s.engines[k]? = some e → t.engines[k]? = some e' →
    e'.out = e.out ∨ ∃ item, e'.out = e.out ++ [item]

/-- 41_engine.md §2, the spec's decision D21: a faulted idle engine stays exactly as it is, and makes no bank operation, until its
connection is closed. -/
def Obligations.FaultLastsUntilClose : Prop :=
  ∀ (s t : State) (k : Nat) (e : Engine), s.engines[k]? = some e → e.fault = true → e.phase = .idle → step s = .next t →
    (∀ rest, s.agenda ≠ .connClose k :: rest) →
    t.engines[k]? = some e ∧
      ((∃ rest, s.agenda = .engine k :: rest) ∨ (∃ chunk rest, s.agenda = .process k chunk :: rest) → t.store = s.store)

/-- 60_exceptions.md §1, 70_reset_and_hazards.md §1 and §3 (log 7, log 8, log 9): the machine never refuses, and stops only where an
agent's step names a slot that does not exist, the host calls `process()` while the last call runs, or the host opens a slot in use.
No bytes on the wire stop it. -/
def Obligations.StopsOnlyOnMisuse : Prop :=
  ∀ s : State, (∀ r, step s ≠ .refused r) ∧ ∀ r, step s = .fault r →
    (∃ k rest, (s.agenda = .engine k :: rest ∨ s.agenda = .connOpen k :: rest ∨ s.agenda = .connClose k :: rest ∨
        s.agenda = .readFault k :: rest ∨ ∃ chunk, s.agenda = .process k chunk :: rest) ∧
      s.engines.length ≤ k ∧ r = .noSuchSlot) ∨
    (∃ k chunk rest e, s.agenda = .process k chunk :: rest ∧ s.engines[k]? = some e ∧ e.phase = .drain ∧
      r = .processWhileDraining) ∨
    (∃ k rest e, s.agenda = .connOpen k :: rest ∧ s.engines[k]? = some e ∧
      (e.rbuf ≠ [] ∨ e.phase = .drain ∨ e.fault = true) ∧ r = .openWithoutClose)

/-- 41_engine.md §2 (the loop ends, an inference the spec marks as derived): a whole `process()` call on an idle engine returns, with
the engine idle again and, unless it is faulted, no whole frame left in its buffer. -/
def Obligations.ProcessCallReturns : Prop :=
  ∀ (s : State) (k : Nat) (chunk : List U8) (e : Engine), s.engines[k]? = some e → e.phase = .idle →
    ∃ t e', processCall k chunk s = .next t ∧ t.agenda = [] ∧ t.engines[k]? = some e' ∧ e'.phase = .idle ∧
      (e'.fault = false → decode e'.rbuf = .incomplete)

/-- 41_engine.md §4 (a law the spec marks as derived): two `process()` calls leave exactly the state that one call on the two chunks
together leaves, wherever the split falls; with an unbounded buffer and no other agent's step between. -/
def Obligations.ChunkSplitInvisible : Prop :=
  ∀ (s : State) (k : Nat) (c₁ c₂ : List U8) (e : Engine), s.rbufCap = none → s.engines[k]? = some e → e.phase = .idle →
    ∃ t u, processCall k c₁ s = .next t ∧ processCall k c₂ t = .next u ∧ processCall k (c₁ ++ c₂) s = .next u

/-- 41_engine.md §4 (a law the spec marks as derived): valid requests delivered in one chunk get one response each, in the order of the
requests, each with its request's transaction id first. -/
def Obligations.PipelinedRequestsAnsweredInOrder : Prop :=
  ∀ (s : State) (k : Nat) (reqs : List Instr) (e : Engine), s.rbufCap = none → s.engines[k]? = some e → e.phase = .idle →
    e.fault = false → e.rbuf = [] → (∀ i ∈ reqs, i.wellFormed = true) →
    ∃ (t : State) (bs : List (List U8)), processCall k (reqs.flatMap encode) s = .next t ∧
      t.engines[k]? = some { e with out := e.out ++ bs.map OutItem.frame } ∧
      bs.map (fun b => be16 (b.getD 0 0) (b.getD 1 0)) = reqs.map fun i => i.tag.tid

/-- 20_memory.md §4 and 95_test_vectors.md P6: of two connections, one writing registers and one reading them, the read sees all of the
write or none of it, whichever engine steps first, and the registers end the same. -/
def Obligations.NoTornRegisterRead : Prop :=
  ∀ (s : State) (j k : Nat) (ej ek : Engine) (t u : Tag) (ops : MultiOps) (addr count : U16) (rj rk : List U8), j ≠ k →
    s.engines[j]? = some ej → s.engines[k]? = some ek → ej.phase = .drain → ek.phase = .drain →
    decode ej.rbuf = .request (.writeMultipleRegisters t ops) rj →
    decode ek.rbuf = .request (.readHoldingRegisters u (.fields addr count)) rk →
    1 ≤ count.toNat → count.toNat ≤ 125 → addr.toNat + count.toNat ≤ s.store.hr.cap →
    ∃ v w, Sys2Proof.core.run 2 { s with agenda := [.engine j, .engine k] } = .next v ∧
      Sys2Proof.core.run 2 { s with agenda := [.engine k, .engine j] } = .next w ∧ v.store = w.store ∧
      v.engines[k]? = some { ek with rbuf := rk, out := ek.out ++ [.frame (adu u 0x03
        (BitVec.ofNat 8 (2 * count.toNat) :: wordsOnWire v.store.hr addr.toNat count.toNat))] } ∧
      w.engines[k]? = some { ek with rbuf := rk, out := ek.out ++ [.frame (adu u 0x03
        (BitVec.ofNat 8 (2 * count.toNat) :: wordsOnWire s.store.hr addr.toNat count.toNat))] }
end

