-- ==== Sys2Proof/Laws/Decode.lean ====
section
/-! SUPPORT. What the codec's functions do: byte order, the frame decoder on encoded and on longer buffers, operand formats. -/

namespace Sys2Proof

/-! ### Byte order -/

/-- `be16(s, i)` is `s[i] * 256 + s[i+1]` (00_scope.md §4). -/
theorem be16_toNat (hi lo : U8) : (be16 hi lo).toNat = hi.toNat * 256 + lo.toNat := by
  have h := BitVec.toNat_append hi lo
  rw [← Nat.shiftLeft_add_eq_or_of_lt lo.isLt, Nat.shiftLeft_eq] at h
  exact h

theorem extract_hi_toNat (v : U16) : (v.extractLsb' 8 8).toNat = v.toNat / 256 := by
  have := v.isLt
  rw [BitVec.extractLsb'_toNat, Nat.shiftRight_eq_div_pow]; omega

theorem extract_lo_toNat (v : U16) : (v.extractLsb' 0 8).toNat = v.toNat % 256 := by
  rw [BitVec.extractLsb'_toNat, Nat.shiftRight_zero]

@[simp] theorem be16_extract (v : U16) : be16 (v.extractLsb' 8 8) (v.extractLsb' 0 8) = v := by
  apply BitVec.eq_of_toNat_eq
  rw [be16_toNat, extract_hi_toNat, extract_lo_toNat]; omega

@[simp] theorem extract_be16_hi (hi lo : U8) : (be16 hi lo).extractLsb' 8 8 = hi := by
  have := lo.isLt
  apply BitVec.eq_of_toNat_eq
  rw [extract_hi_toNat, be16_toNat]; omega

@[simp] theorem extract_be16_lo (hi lo : U8) : (be16 hi lo).extractLsb' 0 8 = lo := by
  have := lo.isLt
  apply BitVec.eq_of_toNat_eq
  rw [extract_lo_toNat, be16_toNat]; omega

@[simp] theorem bytes16_be16 (hi lo : U8) : bytes16 (be16 hi lo) = [hi, lo] := by simp [bytes16]

@[simp] theorem bytes16_length (v : U16) : (bytes16 v).length = 2 := rfl

/-! ### The frame decoder -/

/-- The decoder on 8 header bytes and what follows them. -/
theorem decodeFrame_cons (t1 t0 p1 p0 l1 l0 u f : U8) (rest : List U8) :
    decodeFrame (t1 :: t0 :: p1 :: p0 :: l1 :: l0 :: u :: f :: rest) =
      if rest.length < (be16 l1 l0).toNat - 2 then none
      else some
        ({ transactionId := be16 t1 t0, protocolId := be16 p1 p0, length := be16 l1 l0, unitId := u, functionCode := f,
           data := rest.take ((be16 l1 l0).toNat - 2) }, rest.drop ((be16 l1 l0).toNat - 2)) := rfl

/-- A buffer shorter than the header has no frame. -/
theorem decodeFrame_short {buf : List U8} (h : buf.length < 8) : decodeFrame buf = none := by
  match buf with
  | [] | [_] | [_, _] | [_, _, _] | [_, _, _, _] | [_, _, _, _, _] | [_, _, _, _, _, _] | [_, _, _, _, _, _, _] => rfl
  | _ :: _ :: _ :: _ :: _ :: _ :: _ :: _ :: _ => simp at h; omega

/-- A buffer of at least 8 bytes begins with a header. -/
theorem exists_header {buf : List U8} (h : 8 ≤ buf.length) :
    ∃ t1 t0 p1 p0 l1 l0 u f rest, buf = t1 :: t0 :: p1 :: p0 :: l1 :: l0 :: u :: f :: rest := by
  match buf with
  | [] | [_] | [_, _] | [_, _, _] | [_, _, _, _] | [_, _, _, _, _] | [_, _, _, _, _, _] | [_, _, _, _, _, _, _] =>
    simp at h
  | t1 :: t0 :: p1 :: p0 :: l1 :: l0 :: u :: f :: rest => exact ⟨t1, t0, p1, p0, l1, l0, u, f, rest, rfl⟩

/-- Everything a decoded frame says of its buffer: a header, the data its `length` asks for, the rest. -/
theorem decodeFrame_eq_some {buf rest : List U8} {f : Frame} (h : decodeFrame buf = some (f, rest)) :
    ∃ t1 t0 p1 p0 l1 l0,
      f.transactionId = be16 t1 t0 ∧ f.protocolId = be16 p1 p0 ∧ f.length = be16 l1 l0 ∧
      f.data.length = f.length.toNat - 2 ∧
      buf = t1 :: t0 :: p1 :: p0 :: l1 :: l0 :: f.unitId :: f.functionCode :: (f.data ++ rest) := by
  by_cases h8 : 8 ≤ buf.length
  · obtain ⟨t1, t0, p1, p0, l1, l0, u, fc, tail, rfl⟩ := exists_header h8
    rw [decodeFrame_cons] at h
    split at h
    · cases h
    · simp only [Option.some.injEq, Prod.mk.injEq] at h
      obtain ⟨rfl, rfl⟩ := h
      refine ⟨t1, t0, p1, p0, l1, l0, rfl, rfl, rfl, ?_, ?_⟩
      · simp only [List.length_take]; omega
      · simp only [List.take_append_drop]
  · rw [decodeFrame_short (by omega)] at h; cases h

/-- A frame whose data is as long as its `length` says decodes from its own bytes, and leaves what follows them. -/
theorem decodeFrame_encodeFrame {f : Frame} (h : f.data.length = f.length.toNat - 2) (rest : List U8) :
    decodeFrame (encodeFrame f ++ rest) = some (f, rest) := by
  obtain ⟨t, p, l, u, fc, d⟩ := f
  simp only at h
  simp only [encodeFrame, bytes16, List.cons_append, List.nil_append, decodeFrame_cons, be16_extract,
    List.length_append, h]
  rw [if_neg (by omega), ← h]
  simp

/-- More bytes behind a whole frame change nothing but the rest. -/
theorem decodeFrame_append {buf rest : List U8} {f : Frame} (h : decodeFrame buf = some (f, rest)) (x : List U8) :
    decodeFrame (buf ++ x) = some (f, rest ++ x) := by
  obtain ⟨t1, t0, p1, p0, l1, l0, ht, hp, hl, hd, rfl⟩ := decodeFrame_eq_some h
  obtain ⟨t, p, l, u, fc, d⟩ := f
  simp only at ht hp hl hd
  subst ht hp hl
  simp only [List.cons_append, List.append_assoc, decodeFrame_cons, List.length_append]
  rw [if_neg (by omega), ← hd]
  simp

/-- A decoded frame takes at least the 8 header bytes. -/
theorem decodeFrame_rest_length {buf rest : List U8} {f : Frame} (h : decodeFrame buf = some (f, rest)) :
    rest.length + 8 ≤ buf.length := by
  obtain ⟨_, _, _, _, _, _, _, _, _, _, rfl⟩ := decodeFrame_eq_some h
  simp only [List.length_cons, List.length_append]; omega

/-! ### The decoder of instructions -/

/-- A request is a whole structurally valid frame. -/
theorem decode_eq_request {buf rest : List U8} {i : Instr} (h : decode buf = .request i rest) :
    ∃ f, decodeFrame buf = some (f, rest) ∧ f.isValid = true ∧ i = select f := by
  unfold decode at h
  split at h
  · cases h
  · rename_i f r heq
    split at h
    · rename_i hv
      simp only [Decoded.request.injEq] at h
      exact ⟨f, by rw [heq, h.2], hv, h.1.symm⟩
    · cases h

/-- An invalid frame is a whole frame that fails `is_valid`. -/
theorem decode_eq_invalidFrame {buf : List U8} {f : Frame} (h : decode buf = .invalidFrame f) :
    ∃ rest, decodeFrame buf = some (f, rest) ∧ f.isValid = false := by
  unfold decode at h
  split at h
  · cases h
  · rename_i g r heq
    split at h
    · cases h
    · rename_i hv
      simp only [Decoded.invalidFrame.injEq] at h
      subst h
      exact ⟨r, heq, by simpa using hv⟩

/-- The decoder waits exactly where no whole frame is buffered. -/
theorem decode_eq_incomplete {buf : List U8} : decode buf = .incomplete ↔ decodeFrame buf = none := by
  unfold decode
  split
  · simp_all
  · rename_i heq
    rw [heq]
    split <;> simp

theorem decode_request_append {buf rest : List U8} {i : Instr} (h : decode buf = .request i rest) (x : List U8) :
    decode (buf ++ x) = .request i (rest ++ x) := by
  obtain ⟨f, hf, hv, rfl⟩ := decode_eq_request h
  simp [decode, decodeFrame_append hf x, hv]

theorem decode_invalidFrame_append {buf : List U8} {f : Frame} (h : decode buf = .invalidFrame f) (x : List U8) :
    decode (buf ++ x) = .invalidFrame f := by
  obtain ⟨r, hf, hv⟩ := decode_eq_invalidFrame h
  simp [decode, decodeFrame_append hf x, hv]

theorem decode_request_rest_length {buf rest : List U8} {i : Instr} (h : decode buf = .request i rest) :
    rest.length + 8 ≤ buf.length := by
  obtain ⟨f, hf, _⟩ := decode_eq_request h
  exact decodeFrame_rest_length hf

/-! ### Frames the block builds -/

/-- `is_valid`, as a conjunction of its three invariants (40_frame_codec.md R64). -/
theorem Frame.isValid_iff (f : Frame) : f.isValid = true ↔
    f.protocolId = 0 ∧ 2 ≤ f.length.toNat ∧ f.length.toNat ≤ 260 ∧ f.data.length = f.length.toNat - 2 := by
  simp only [Frame.isValid, Bool.and_eq_true, decide_eq_true_eq, minLen, maxLen, and_assoc]

/-- The frame of an instruction has the data `length` it says and `protocol_id` 0. -/
theorem mkFrame_isValid (t : Tag) (fc : U8) {data : List U8} (h : data.length ≤ maxData) :
    (mkFrame t fc data).isValid = true := by
  unfold maxData at h
  have h2 : (BitVec.ofNat 16 (2 + data.length)).toNat = 2 + data.length := by
    rw [BitVec.toNat_ofNat]; omega
  simp [Frame.isValid, mkFrame, minLen, maxLen]
  omega

@[simp] theorem mkFrame_tag (t : Tag) (fc : U8) (data : List U8) : (mkFrame t fc data).tag = t := rfl
@[simp] theorem mkFrame_functionCode (t : Tag) (fc : U8) (data : List U8) : (mkFrame t fc data).functionCode = fc := rfl
@[simp] theorem mkFrame_data (t : Tag) (fc : U8) (data : List U8) : (mkFrame t fc data).data = data := rfl

end Sys2Proof
end

