-- ==== Sys2Proof/Laws/Bank.lean ====
section
/-! SUPPORT. What the bank operations do: read after write, the canonical form, capacities, and one lemma per primitive. -/

namespace Sys2Proof.Machine

variable {w : Nat}

/-! ### The list of cells -/

theorem lookupCell_below {cap lo a : Nat} {l : List (Nat × BitVec w)} (h : canonicalFrom cap lo l = true)
    (ha : a < lo) : lookupCell l a = 0#w := by
  induction l generalizing lo with
  | nil => rfl
  | cons c rest ih =>
    obtain ⟨b, v⟩ := c
    simp only [canonicalFrom, Bool.and_eq_true, decide_eq_true_eq] at h
    obtain ⟨⟨⟨h1, _⟩, _⟩, h4⟩ := h
    rw [lookupCell, if_neg (by omega)]
    exact ih h4 (by omega)

theorem canonicalFrom_mono {cap lo lo' : Nat} {l : List (Nat × BitVec w)} (h : canonicalFrom cap lo l = true)
    (hle : lo' ≤ lo) : canonicalFrom cap lo' l = true := by
  cases l with
  | nil => rfl
  | cons c rest =>
    obtain ⟨b, v⟩ := c
    simp only [canonicalFrom, Bool.and_eq_true, decide_eq_true_eq] at h ⊢
    exact ⟨⟨⟨by omega, h.1.1.2⟩, h.1.2⟩, h.2⟩

/-- Read after write in a canonical list. -/
theorem lookupCell_updateCell {cap lo : Nat} {l : List (Nat × BitVec w)} (h : canonicalFrom cap lo l = true)
    (a x : Nat) (v : BitVec w) : lookupCell (updateCell l a v) x = if x = a then v else lookupCell l x := by
  induction l generalizing lo with
  | nil =>
    by_cases hv : v = 0#w <;> by_cases hx : x = a <;> simp [updateCell, lookupCell, hv, hx]
    intro hax; exact absurd hax.symm hx
  | cons c rest ih =>
    obtain ⟨b, u⟩ := c
    simp only [canonicalFrom, Bool.and_eq_true, decide_eq_true_eq] at h
    obtain ⟨⟨⟨h1, h2⟩, h3⟩, h4⟩ := h
    simp only [updateCell]
    by_cases hba : b < a
    · rw [if_pos hba]
      simp only [lookupCell]
      by_cases hbx : b = x
      · simp [hbx, show x ≠ a by omega]
      · simp [hbx, ih h4]
    · rw [if_neg hba]
      by_cases hab : b = a
      · subst hab
        rw [if_pos rfl]
        by_cases hv : v = 0#w
        · by_cases hx : x = b
          · subst hx
            simp [hv, lookupCell_below h4 (Nat.lt_succ_self _)]
          · simp [hv, hx, lookupCell, Ne.symm hx]
        · by_cases hx : x = b
          · subst hx; simp [hv, lookupCell]
          · simp [hv, hx, lookupCell, Ne.symm hx]
      · rw [if_neg hab]
        by_cases hv : v = 0#w
        · by_cases hx : x = a
          · subst hx
            simp [hv, lookupCell, hab, lookupCell_below h4 (show x < b + 1 by omega)]
          · simp [hv, hx]
        · by_cases hx : x = a
          · subst hx; simp [hv, lookupCell]
          · simp [hv, hx, lookupCell, Ne.symm hx]

/-- A write below the capacity keeps the canonical form. -/
theorem canonicalFrom_updateCell {cap lo a : Nat} {l : List (Nat × BitVec w)} (h : canonicalFrom cap lo l = true)
    (hlo : lo ≤ a) (hcap : a < cap) (v : BitVec w) : canonicalFrom cap lo (updateCell l a v) = true := by
  induction l generalizing lo with
  | nil =>
    by_cases hv : v = 0#w <;> simp [updateCell, canonicalFrom, hv, hlo, hcap]
  | cons c rest ih =>
    obtain ⟨b, u⟩ := c
    simp only [canonicalFrom, Bool.and_eq_true, decide_eq_true_eq] at h
    obtain ⟨⟨⟨h1, h2⟩, h3⟩, h4⟩ := h
    simp only [updateCell]
    by_cases hba : b < a
    · simp [hba, canonicalFrom, h1, h2, h3, ih h4 (by omega)]
    · by_cases hab : b = a
      · subst hab
        by_cases hv : v = 0#w
        · simpa [hv] using canonicalFrom_mono h4 (by omega)
        · simp [hv, canonicalFrom, h1, h2, h4]
      · by_cases hv : v = 0#w
        · simp [hba, hab, hv, canonicalFrom, h1, h2, h3, h4]
        · simp [hba, hab, hv, canonicalFrom, hlo, hcap, h2, h3, h4]
          omega

/-- Two canonical lists that read alike are equal. -/
theorem canonicalFrom_ext {cap lo : Nat} {l m : List (Nat × BitVec w)} (hl : canonicalFrom cap lo l = true)
    (hm : canonicalFrom cap lo m = true) (h : ∀ x, lookupCell l x = lookupCell m x) : l = m := by
  induction l generalizing lo m with
  | nil =>
    cases m with
    | nil => rfl
    | cons c rest =>
      obtain ⟨b, v⟩ := c
      simp only [canonicalFrom, Bool.and_eq_true, decide_eq_true_eq] at hm
      have := h b
      simp [lookupCell] at this
      exact absurd this.symm hm.1.2
  | cons c rest ih =>
    obtain ⟨b, v⟩ := c
    have hl' := hl
    simp only [canonicalFrom, Bool.and_eq_true, decide_eq_true_eq] at hl
    cases m with
    | nil =>
      have := h b
      simp [lookupCell] at this
      exact absurd this hl.1.2
    | cons d rest' =>
      obtain ⟨b', v'⟩ := d
      have hm' := hm
      simp only [canonicalFrom, Bool.and_eq_true, decide_eq_true_eq] at hm
      have hb : b = b' := by
        rcases Nat.lt_trichotomy b b' with hlt | heq | hgt
        · have := h b
          rw [lookupCell, if_pos rfl, lookupCell, if_neg (by omega), lookupCell_below hm.2 (by omega)] at this
          exact absurd this hl.1.2
        · exact heq
        · have := h b'
          rw [lookupCell, if_neg (by omega), lookupCell_below hl.2 (by omega), lookupCell, if_pos rfl] at this
          exact absurd this.symm hm.1.2
      subst hb
      have hv : v = v' := by simpa [lookupCell] using h b
      subst hv
      rw [ih hl.2 hm.2 fun x => ?_]
      by_cases hx : b = x
      · subst hx
        rw [lookupCell_below hl.2 (Nat.lt_succ_self _), lookupCell_below hm.2 (Nat.lt_succ_self _)]
      · simpa [lookupCell, hx] using h x

/-! ### Banks -/

theorem Bank.wf_iff (b : Bank w) : b.wf = true ↔ b.cap ≤ maxCapacity ∧ canonicalFrom b.cap 0 b.cells = true := by
  simp [Bank.wf]

@[simp] theorem Bank.built_cap (cap : Nat) : (Bank.built w cap).cap = cap := rfl

@[simp] theorem Bank.built_cell (cap a : Nat) : (Bank.built w cap).cell a = 0#w := rfl

theorem Bank.built_wf {cap : Nat} (h : cap ≤ maxCapacity) : (Bank.built w cap).wf = true := by
  simp [Bank.wf, Bank.built, canonicalFrom, h]

/-- Equal capacities and equal cells make equal banks. -/
theorem Bank.ext_cells {b c : Bank w} (hb : b.wf = true) (hc : c.wf = true) (hcap : b.cap = c.cap)
    (h : ∀ a, b.cell a = c.cell a) : b = c := by
  obtain ⟨bc, bl⟩ := b
  obtain ⟨cc, cl⟩ := c
  rw [Bank.wf_iff] at hb hc
  simp only at hcap
  subst hcap
  have : bl = cl := canonicalFrom_ext hb.2 hc.2 h
  rw [this]

@[simp] theorem Bank.readCells_length (b : Bank w) (addr count : Nat) : (b.readCells addr count).length = count := by
  simp [Bank.readCells]

theorem Bank.readCells_getElem? (b : Bank w) {addr count i : Nat} (h : i < count) :
    (b.readCells addr count)[i]? = some (b.cell (addr + i)) := by
  simp [Bank.readCells, h]

@[simp] theorem Bank.writeCells_cap (b : Bank w) (addr : Nat) (vs : List (BitVec w)) :
    (b.writeCells addr vs).cap = b.cap := by
  induction vs generalizing b addr with
  | nil => rfl
  | cons v vs ih => rw [Bank.writeCells, ih]

/-- A ranged write keeps the canonical form. -/
theorem Bank.writeCells_wf {b : Bank w} (h : b.wf = true) {addr : Nat} {vs : List (BitVec w)}
    (hr : addr + vs.length ≤ b.cap) : (b.writeCells addr vs).wf = true := by
  induction vs generalizing b addr with
  | nil => exact h
  | cons v vs ih =>
    simp only [List.length_cons] at hr
    rw [Bank.wf_iff] at h
    rw [Bank.writeCells]
    refine ih ?_ (by simp only; omega)
    rw [Bank.wf_iff]
    exact ⟨h.1, canonicalFrom_updateCell h.2 (Nat.zero_le _) (by omega) v⟩

/-- Read after a ranged write. -/
theorem Bank.writeCells_cell {b : Bank w} (h : b.wf = true) {addr : Nat} {vs : List (BitVec w)}
    (hr : addr + vs.length ≤ b.cap) (a : Nat) :
    (b.writeCells addr vs).cell a = if addr ≤ a ∧ a < addr + vs.length then vs.getD (a - addr) 0#w else b.cell a := by
  induction vs generalizing b addr with
  | nil => simp [Bank.writeCells]
  | cons v vs ih =>
    simp only [List.length_cons] at hr
    have h' := h
    rw [Bank.wf_iff] at h
    have hw : Bank.wf { b with cells := updateCell b.cells addr v } = true := by
      rw [Bank.wf_iff]
      exact ⟨h.1, canonicalFrom_updateCell h.2 (Nat.zero_le _) (by omega) v⟩
    rw [Bank.writeCells, ih hw (by simp only; omega)]
    simp only [List.length_cons]
    by_cases h1 : a = addr
    · subst h1
      have : ¬(a + 1 ≤ a) := by omega
      simp [this, Bank.cell, lookupCell_updateCell h.2]
    · by_cases h2 : addr + 1 ≤ a ∧ a < addr + 1 + vs.length
      · have h3 : a - addr = (a - (addr + 1)) + 1 := by omega
        rw [if_pos h2, if_pos (by omega), h3, List.getD_cons_succ]
      · rw [if_neg h2, if_neg (by omega)]
        simp [Bank.cell, lookupCell_updateCell h.2, h1]

/-! ### The primitives -/

theorem inRange_iff {cap : Nat} {addr count : Int} :
    inRange cap addr count = true ↔ 0 ≤ addr ∧ 0 ≤ count ∧ addr + count ≤ cap := by
  simp [inRange, and_assoc]

/-- The range condition of a handler's own operands. -/
theorem inRange_nat {cap addr count : Nat} : inRange cap (addr : Int) (count : Int) = decide (addr + count ≤ cap) := by
  rw [Bool.eq_iff_iff, inRange_iff, decide_eq_true_eq]
  omega

/-- `get` on natural operands: the cells where the range is within the capacity, else the address range error. -/
theorem Bank.get_nat (b : Bank w) (addr count : Nat) :
    b.get addr count = if addr + count ≤ b.cap then some (b.readCells addr count) else none := by
  simp [Bank.get, inRange_nat]

/-- `set` on a natural address: the bank with the range written where it is within the capacity, else the address range error. -/
theorem Bank.set_nat (b : Bank w) (addr : Nat) (vs : List (BitVec w)) :
    b.set addr vs = if addr + vs.length ≤ b.cap then some (b.writeCells addr vs) else none := by
  simp [Bank.set, inRange_nat]

/-- Everything a `get` that answers can answer. -/
theorem Bank.get_eq_some {b : Bank w} {addr count : Int} {v : List (BitVec w)} (h : b.get addr count = some v) :
    0 ≤ addr ∧ 0 ≤ count ∧ addr + count ≤ b.cap ∧ v = b.readCells addr.toNat count.toNat := by
  unfold Bank.get at h
  split at h
  · rename_i hr
    exact ⟨(inRange_iff.1 hr).1, (inRange_iff.1 hr).2.1, (inRange_iff.1 hr).2.2, (Option.some.inj h).symm⟩
  · cases h

/-- Everything a `set` that answers can do. -/
theorem Bank.set_eq_some {b c : Bank w} {addr : Int} {vs : List (BitVec w)} (h : b.set addr vs = some c) :
    0 ≤ addr ∧ addr.toNat + vs.length ≤ b.cap ∧ c = b.writeCells addr.toNat vs := by
  unfold Bank.set at h
  split at h
  · rename_i hr
    have := inRange_iff.1 hr
    exact ⟨this.1, by omega, (Option.some.inj h).symm⟩
  · cases h

/-- A `set` keeps the capacity. -/
theorem Bank.set_cap {b c : Bank w} {addr : Int} {vs : List (BitVec w)} (h : b.set addr vs = some c) : c.cap = b.cap := by
  rw [(Bank.set_eq_some h).2.2, Bank.writeCells_cap]

/-- A `set` keeps the canonical form. -/
theorem Bank.set_wf {b c : Bank w} {addr : Int} {vs : List (BitVec w)} (h : b.set addr vs = some c)
    (hb : b.wf = true) : c.wf = true := by
  obtain ⟨_, hr, rfl⟩ := Bank.set_eq_some h
  exact Bank.writeCells_wf hb hr

/-- The store as built is canonical. -/
theorem DataStore.wf_iff (d : DataStore) :
    d.wf = true ↔ d.di.wf = true ∧ d.co.wf = true ∧ d.ir.wf = true ∧ d.hr.wf = true := by
  simp [DataStore.wf, and_assoc]

/-- The memory of a machine built within the ranges of R5 has the canonical form. -/
theorem State.initial_memory_wf {p : Params} (h : p.wf = true) : Memory.wf (State.initial p).store = true := by
  simp only [Params.wf, Bool.and_eq_true, decide_eq_true_eq] at h
  rw [Memory.wf, DataStore.wf_iff]
  exact ⟨Bank.built_wf h.1.1.1.2, Bank.built_wf h.1.1.2, Bank.built_wf h.1.2, Bank.built_wf h.2⟩

/-- The memory after reset has the canonical form. -/
theorem State.reset_memory_wf : Memory.wf State.reset.store = true := State.initial_memory_wf (by decide)

end Sys2Proof.Machine
end

