-- ==== Sys2Proof/Laws/Operands.lean ====
section
/-! SUPPORT. What the operand forms do: packed bits and big-endian words. -/

namespace Sys2Proof.Machine

@[simp] theorem pack_length (v : List Bit) : (pack v).length = ceil8 v.length := by simp [pack]

@[simp] theorem unpack_length (p : List U8) (count : Nat) : (unpack p count).length = count := by simp [unpack]

@[simp] theorem payloadWords_length (p : List U8) (count : Nat) : (payloadWords p count).length = count := by
  simp [payloadWords]

@[simp] theorem maskWord_eq (v : U16) : maskWord v = v := by
  unfold maskWord
  exact BitVec.and_allOnes

theorem wordBytes_eq (v : List U16) : wordBytes v = v.flatMap bytes16 := by simp [wordBytes]

@[simp] theorem wordBytes_length (v : List U16) : (wordBytes v).length = 2 * v.length := by
  rw [wordBytes_eq]
  induction v with
  | nil => rfl
  | cons x v ih => rw [List.flatMap_cons, List.length_append, ih, bytes16_length, List.length_cons]; omega

/-- Bit `i` of a packed byte is the cell at that place, 0 where there is none. -/
theorem packByte_getLsbD (v : List Bit) (j : Nat) {i : Nat} (h : i < 8) :
    (packByte v j).getLsbD i = (v.getD (8 * j + i) 0).getLsbD 0 := by
  unfold packByte
  simp only [BitVec.getLsbD_append]
  interval_cases i <;> simp

/-- Bit `i` of the packed bytes is cell `i`. -/
theorem pack_getLsbD (v : List Bit) {i : Nat} (h : i < 8 * ceil8 v.length) :
    ((pack v).getD (i / 8) 0).getLsbD (i % 8) = (v.getD i 0).getLsbD 0 := by
  have h1 : i / 8 < ceil8 v.length := by omega
  have h2 : (pack v).getD (i / 8) 0 = packByte v (i / 8) := by
    simp [pack, List.getD_eq_getElem?_getD, h1]
  rw [h2, packByte_getLsbD v _ (Nat.mod_lt _ (by omega)), Nat.div_add_mod]

/-- A packed bit is a bit of its byte. -/
theorem packedBit_getLsbD (p : List U8) (i : Nat) :
    (packedBit p i).getLsbD 0 = (p.getD (i / 8) 0).getLsbD (i % 8) := by
  simp [packedBit]

/-- Two bits are equal where their one bit is. -/
theorem bit_ext {a b : Bit} (h : a.getLsbD 0 = b.getLsbD 0) : a = b := by
  ext i hi
  obtain rfl : i = 0 := by omega
  simpa [← BitVec.getLsbD_eq_getElem] using h

end Sys2Proof.Machine
end

