-- ==== Sys2Proof/Laws/State.lean ====
section
/-! SUPPORT. One lemma per field per update of a state, so that no later proof unfolds a record update. -/

namespace Sys2Proof.Machine

section Engines

variable (e : Engine) (item : OutItem)

@[simp] theorem Engine.push_rbuf : (e.push item).rbuf = e.rbuf := rfl
@[simp] theorem Engine.push_phase : (e.push item).phase = e.phase := rfl
@[simp] theorem Engine.push_fault : (e.push item).fault = e.fault := rfl
@[simp] theorem Engine.push_out : (e.push item).out = e.out ++ [item] := rfl

@[simp] theorem Engine.connectionFault_rbuf : e.connectionFault.rbuf = [] := rfl
@[simp] theorem Engine.connectionFault_phase : e.connectionFault.phase = .idle := rfl
@[simp] theorem Engine.connectionFault_fault : e.connectionFault.fault = true := rfl
@[simp] theorem Engine.connectionFault_out : e.connectionFault.out = e.out := rfl

@[simp] theorem Engine.opened_rbuf : e.opened.rbuf = [] := rfl
@[simp] theorem Engine.opened_phase : e.opened.phase = .idle := rfl
@[simp] theorem Engine.opened_fault : e.opened.fault = false := rfl
@[simp] theorem Engine.opened_out : e.opened.out = e.out := rfl

theorem Engine.unused_iff : e.unused = true ↔ e.rbuf = [] ∧ e.phase = .idle ∧ e.fault = false := by
  simp [Engine.unused, and_assoc]

/-- A slot is in use when it drains, holds bytes, or is faulted. -/
theorem Engine.unused_eq_false : e.unused = false ↔ e.rbuf ≠ [] ∨ e.phase = .drain ∨ e.fault = true := by
  cases hp : e.phase <;> cases hf : e.fault <;> simp [Engine.unused, hp, hf]

/-- Opening a slot that is not in use leaves its engine as it was. -/
theorem Engine.opened_of_unused {e : Engine} (h : e.unused = true) : e.opened = e := by
  obtain ⟨hr, hp, hf⟩ := (Engine.unused_iff e).1 h
  cases e; simp_all [Engine.opened]

@[simp] theorem Engine.opened_unused : e.opened.unused = true := by simp [Engine.unused]
@[simp] theorem Engine.closed_unused : e.closed.unused = true := by simp [Engine.unused, Engine.closed]
@[simp] theorem Engine.reset_unused : Engine.reset.unused = true := by decide

@[simp] theorem Engine.closed_rbuf : e.closed.rbuf = [] := rfl
@[simp] theorem Engine.closed_phase : e.closed.phase = .idle := rfl
@[simp] theorem Engine.closed_fault : e.closed.fault = false := rfl
@[simp] theorem Engine.closed_out : e.closed.out = e.out ++ [.close] := rfl

end Engines

section ModifyEngine

variable (s : State) (k : Nat) (f : Engine → Engine)

@[simp] theorem State.modifyEngine_store : (s.modifyEngine k f).store = s.store := rfl
@[simp] theorem State.modifyEngine_engines : (s.modifyEngine k f).engines = s.engines.modify k f := rfl
@[simp] theorem State.modifyEngine_rbufCap : (s.modifyEngine k f).rbufCap = s.rbufCap := rfl
@[simp] theorem State.modifyEngine_active : (s.modifyEngine k f).active = s.active := rfl
@[simp] theorem State.modifyEngine_agenda : (s.modifyEngine k f).agenda = s.agenda := rfl
@[simp] theorem State.modifyEngine_deviceOut : (s.modifyEngine k f).deviceOut = s.deviceOut := rfl
@[simp] theorem State.modifyEngine_hostOut : (s.modifyEngine k f).hostOut = s.hostOut := rfl

end ModifyEngine

section Send

variable (s : State) (bytes : List U8)

@[simp] theorem State.send_store : (s.send bytes).store = s.store := rfl
@[simp] theorem State.send_engines :
    (s.send bytes).engines = s.engines.modify s.active (·.push (.frame bytes)) := rfl
@[simp] theorem State.send_rbufCap : (s.send bytes).rbufCap = s.rbufCap := rfl
@[simp] theorem State.send_active : (s.send bytes).active = s.active := rfl
@[simp] theorem State.send_agenda : (s.send bytes).agenda = s.agenda := rfl
@[simp] theorem State.send_deviceOut : (s.send bytes).deviceOut = s.deviceOut := rfl
@[simp] theorem State.send_hostOut : (s.send bytes).hostOut = s.hostOut := rfl

end Send

section Banks

variable (s : State) (b : Bank 1) (r : Bank 16)

@[simp] theorem State.withDi_store : (s.withDi b).store = { s.store with di := b } := rfl
@[simp] theorem State.withDi_engines : (s.withDi b).engines = s.engines := rfl
@[simp] theorem State.withDi_rbufCap : (s.withDi b).rbufCap = s.rbufCap := rfl
@[simp] theorem State.withDi_active : (s.withDi b).active = s.active := rfl
@[simp] theorem State.withDi_agenda : (s.withDi b).agenda = s.agenda := rfl
@[simp] theorem State.withDi_deviceOut : (s.withDi b).deviceOut = s.deviceOut := rfl
@[simp] theorem State.withDi_hostOut : (s.withDi b).hostOut = s.hostOut := rfl

@[simp] theorem State.withCo_store : (s.withCo b).store = { s.store with co := b } := rfl
@[simp] theorem State.withCo_engines : (s.withCo b).engines = s.engines := rfl
@[simp] theorem State.withCo_rbufCap : (s.withCo b).rbufCap = s.rbufCap := rfl
@[simp] theorem State.withCo_active : (s.withCo b).active = s.active := rfl
@[simp] theorem State.withCo_agenda : (s.withCo b).agenda = s.agenda := rfl
@[simp] theorem State.withCo_deviceOut : (s.withCo b).deviceOut = s.deviceOut := rfl
@[simp] theorem State.withCo_hostOut : (s.withCo b).hostOut = s.hostOut := rfl

@[simp] theorem State.withIr_store : (s.withIr r).store = { s.store with ir := r } := rfl
@[simp] theorem State.withIr_engines : (s.withIr r).engines = s.engines := rfl
@[simp] theorem State.withIr_rbufCap : (s.withIr r).rbufCap = s.rbufCap := rfl
@[simp] theorem State.withIr_active : (s.withIr r).active = s.active := rfl
@[simp] theorem State.withIr_agenda : (s.withIr r).agenda = s.agenda := rfl
@[simp] theorem State.withIr_deviceOut : (s.withIr r).deviceOut = s.deviceOut := rfl
@[simp] theorem State.withIr_hostOut : (s.withIr r).hostOut = s.hostOut := rfl

@[simp] theorem State.withHr_store : (s.withHr r).store = { s.store with hr := r } := rfl
@[simp] theorem State.withHr_engines : (s.withHr r).engines = s.engines := rfl
@[simp] theorem State.withHr_rbufCap : (s.withHr r).rbufCap = s.rbufCap := rfl
@[simp] theorem State.withHr_active : (s.withHr r).active = s.active := rfl
@[simp] theorem State.withHr_agenda : (s.withHr r).agenda = s.agenda := rfl
@[simp] theorem State.withHr_deviceOut : (s.withHr r).deviceOut = s.deviceOut := rfl
@[simp] theorem State.withHr_hostOut : (s.withHr r).hostOut = s.hostOut := rfl

end Banks

section AnswerDevice

variable (s : State) (r : DeviceReply)

@[simp] theorem State.answerDevice_store : (s.answerDevice r).store = s.store := rfl
@[simp] theorem State.answerDevice_engines : (s.answerDevice r).engines = s.engines := rfl
@[simp] theorem State.answerDevice_rbufCap : (s.answerDevice r).rbufCap = s.rbufCap := rfl
@[simp] theorem State.answerDevice_active : (s.answerDevice r).active = s.active := rfl
@[simp] theorem State.answerDevice_agenda : (s.answerDevice r).agenda = s.agenda := rfl
@[simp] theorem State.answerDevice_deviceOut : (s.answerDevice r).deviceOut = s.deviceOut ++ [r] := rfl
@[simp] theorem State.answerDevice_hostOut : (s.answerDevice r).hostOut = s.hostOut := rfl

end AnswerDevice

/-- An engine other than the one changed is unchanged. -/
theorem State.modifyEngine_other (s : State) {j k : Nat} (f : Engine → Engine) (h : j ≠ k) :
    (s.modifyEngine k f).engines[j]? = s.engines[j]? := by
  simp [Ne.symm h]

/-- The engine changed. -/
theorem State.modifyEngine_self (s : State) (k : Nat) (f : Engine → Engine) :
    (s.modifyEngine k f).engines[k]? = s.engines[k]?.map f := by
  simp

end Sys2Proof.Machine
end

