-- ==== Sys2Proof/Laws/Ops.lean ====
section
/-! SUPPORT. Once for each shared operation, everything it can do: the reply, the exception, the handlers, and `exec`. -/

namespace Sys2Proof.Machine

/-! ### Replies -/

theorem reply_next {s : State} (h : s.active < s.engines.length) (r : Frame) :
    reply s r = .next (s.send (encodeFrame r)) := if_pos h

theorem reply_fault {s : State} (h : ¬s.active < s.engines.length) (r : Frame) : reply s r = .fault .noSuchSlot :=
  if_neg h

theorem takeException_next {s : State} (h : s.active < s.engines.length) (req : Frame) (c : ExceptionCode) :
    takeException s req c = .next (s.send (encodeFrame (deriveException req c))) := reply_next h _

/-! ### What an instruction can do to the store -/

/-- The store after a request: at most one `set`, on the coils or on the holding registers. -/
inductive StoreStep (d : DataStore) : DataStore → Prop where
  | same : StoreStep d d
  | coils {co : Bank 1} {addr : Int} {vs : List Bit} (h : d.co.set addr vs = some co) : StoreStep d { d with co := co }
  | holding {hr : Bank 16} {addr : Int} {vs : List U16} (h : d.hr.set addr vs = some hr) : StoreStep d { d with hr := hr }

theorem StoreStep.di {d d' : DataStore} (h : StoreStep d d') : d'.di = d.di := by cases h <;> rfl
theorem StoreStep.ir {d d' : DataStore} (h : StoreStep d d') : d'.ir = d.ir := by cases h <;> rfl

theorem StoreStep.co_cap {d d' : DataStore} (h : StoreStep d d') : d'.co.cap = d.co.cap := by
  cases h with
  | coils h => exact Bank.set_cap h
  | _ => rfl

theorem StoreStep.hr_cap {d d' : DataStore} (h : StoreStep d d') : d'.hr.cap = d.hr.cap := by
  cases h with
  | holding h => exact Bank.set_cap h
  | _ => rfl

/-- A request keeps the memory's canonical form. -/
theorem StoreStep.wf {d d' : DataStore} (h : StoreStep d d') (hd : Memory.wf d = true) : Memory.wf d' = true := by
  rw [DataStore.wf_iff] at hd ⊢
  cases h with
  | same => exact hd
  | coils h => exact ⟨hd.1, Bank.set_wf h hd.2.1, hd.2.2.1, hd.2.2.2⟩
  | holding h => exact ⟨hd.1, hd.2.1, hd.2.2.1, Bank.set_wf h hd.2.2.2⟩

/-! ### What an instruction answers -/

/-- Everything an instruction can do: an exception with the store as it was, or a success response after at most one `set`. -/
def Answers (req : Frame) (s : State) (o : Host.Outcome State Fault Refusal) : Prop :=
  (∃ c, (c = .illegalFunction ∨ c = .dataAddress ∨ c = .dataValue) ∧ o = reply s (deriveException req c)) ∨
    (supported req.functionCode = true ∧ ∃ d data, StoreStep s.store d ∧ data.length ≤ 251 ∧
      o = reply { s with store := d } (deriveResponse req (some data)))

theorem answers_dataValue (req : Frame) (s : State) : Answers req s (takeException s req .dataValue) :=
  .inl ⟨.dataValue, .inr (.inr rfl), rfl⟩

theorem answers_dataAddress (req : Frame) (s : State) : Answers req s (takeException s req .dataAddress) :=
  .inl ⟨.dataAddress, .inr (.inl rfl), rfl⟩

/-- A read handler whose payload is at most 250 bytes. -/
theorem readHandler_answers {w : Nat} {req : Frame} (hs : supported req.functionCode = true) (ops : RangeOps) (b : Bank w)
    (maxCount : Nat) (payload : List (BitVec w) → List U8) (hp : ∀ v, v.length ≤ maxCount → (payload v).length ≤ 250)
    (s : State) : Answers req s (readHandler req ops b maxCount payload s) := by
  unfold readHandler
  split
  · exact answers_dataValue req s
  · split
    · rename_i hc
      split
      · exact answers_dataAddress req s
      · rename_i v hv
        simp only [countOk, Bool.and_eq_true, decide_eq_true_eq] at hc
        refine .inr ⟨hs, s.store, _, .same, ?_, rfl⟩
        have := hp v (by rw [(Bank.get_eq_some hv).2.2.2, Bank.readCells_length]; omega)
        simp only [countedPayload, List.length_cons]; omega
    · exact answers_dataValue req s

theorem packed_payload (v : List Bit) (h : v.length ≤ maxReadBits) : (pack v).length ≤ 250 := by
  simp only [maxReadBits] at h
  rw [pack_length, ceil8]; omega

theorem words_payload (v : List U16) (h : v.length ≤ maxReadWords) : (wordBytes v).length ≤ 250 := by
  simp only [maxReadWords] at h
  rw [wordBytes_length]; omega

theorem execReadCoils_answers (t : Tag) (ops : RangeOps) (s : State) :
    Answers (mkFrame t 0x01 ops.data) s (execReadCoils t ops s) :=
  readHandler_answers (by rw [mkFrame_functionCode]; decide) ops _ _ _ packed_payload s

theorem execReadDiscreteInputs_answers (t : Tag) (ops : RangeOps) (s : State) :
    Answers (mkFrame t 0x02 ops.data) s (execReadDiscreteInputs t ops s) :=
  readHandler_answers (by rw [mkFrame_functionCode]; decide) ops _ _ _ packed_payload s

theorem execReadHoldingRegisters_answers (t : Tag) (ops : RangeOps) (s : State) :
    Answers (mkFrame t 0x03 ops.data) s (execReadHoldingRegisters t ops s) :=
  readHandler_answers (by rw [mkFrame_functionCode]; decide) ops _ _ _ words_payload s

theorem execReadInputRegisters_answers (t : Tag) (ops : RangeOps) (s : State) :
    Answers (mkFrame t 0x04 ops.data) s (execReadInputRegisters t ops s) :=
  readHandler_answers (by rw [mkFrame_functionCode]; decide) ops _ _ _ words_payload s

theorem execWriteSingleCoil_answers (t : Tag) (ops : SingleOps) (s : State) :
    Answers (mkFrame t 0x05 ops.data) s (execWriteSingleCoil t ops s) := by
  unfold execWriteSingleCoil
  cases ops with
  | misfit d => exact answers_dataValue _ s
  | fields addr value =>
    simp only
    split
    · exact answers_dataValue _ s
    · split
      · exact answers_dataAddress _ s
      · rename_i hset
        exact .inr ⟨by rw [mkFrame_functionCode]; decide, _, _, .coils hset, by simp [SingleOps.data], rfl⟩

theorem execWriteSingleRegister_answers (t : Tag) (ops : SingleOps) (s : State) :
    Answers (mkFrame t 0x06 ops.data) s (execWriteSingleRegister t ops s) := by
  unfold execWriteSingleRegister
  cases ops with
  | misfit d => exact answers_dataValue _ s
  | fields addr value =>
    simp only
    split
    · exact answers_dataAddress _ s
    · rename_i hset
      exact .inr ⟨by rw [mkFrame_functionCode]; decide, _, _, .holding hset, by simp [SingleOps.data], rfl⟩

theorem execWriteMultipleCoils_answers (t : Tag) (ops : MultiOps) (s : State) :
    Answers (mkFrame t 0x0F ops.data) s (execWriteMultipleCoils t ops s) := by
  unfold execWriteMultipleCoils
  cases ops with
  | misfit d => exact answers_dataValue _ s
  | fields addr count bc payload =>
    simp only
    split
    · split
      · exact answers_dataAddress _ s
      · rename_i hset
        exact .inr ⟨by rw [mkFrame_functionCode]; decide, _, _, .coils hset, by simp [echoRange], rfl⟩
    · exact answers_dataValue _ s

theorem execWriteMultipleRegisters_answers (t : Tag) (ops : MultiOps) (s : State) :
    Answers (mkFrame t 0x10 ops.data) s (execWriteMultipleRegisters t ops s) := by
  unfold execWriteMultipleRegisters
  cases ops with
  | misfit d => exact answers_dataValue _ s
  | fields addr count bc payload =>
    simp only
    split
    · split
      · exact answers_dataAddress _ s
      · rename_i hset
        exact .inr ⟨by rw [mkFrame_functionCode]; decide, _, _, .holding hset, by simp [echoRange], rfl⟩
    · exact answers_dataValue _ s

theorem execIllegalFunction_answers (t : Tag) (fc : U8) (d : List U8) (s : State) :
    Answers (mkFrame t fc d) s (execIllegalFunction t fc d s) :=
  .inl ⟨.illegalFunction, .inl rfl, rfl⟩

/-- The inversion of `exec`: every instruction answers as `Answers` says. -/
theorem exec_answers (i : Instr) (s : State) : Answers i.toFrame s (exec i s) := by
  cases i with
  | readCoils t ops => exact execReadCoils_answers t ops s
  | readDiscreteInputs t ops => exact execReadDiscreteInputs_answers t ops s
  | readHoldingRegisters t ops => exact execReadHoldingRegisters_answers t ops s
  | readInputRegisters t ops => exact execReadInputRegisters_answers t ops s
  | writeSingleCoil t ops => exact execWriteSingleCoil_answers t ops s
  | writeSingleRegister t ops => exact execWriteSingleRegister_answers t ops s
  | writeMultipleCoils t ops => exact execWriteMultipleCoils_answers t ops s
  | writeMultipleRegisters t ops => exact execWriteMultipleRegisters_answers t ops s
  | illegalFunction t fc d => exact execIllegalFunction_answers t fc d s

/-- The same, as a next state: the store after one request, and one response sent. -/
theorem exec_next {i : Instr} {s : State} (h : s.active < s.engines.length) :
    ∃ d f, StoreStep s.store d ∧ exec i s = .next (({ s with store := d } : State).send (encodeFrame f)) := by
  rcases exec_answers i s with ⟨c, _, he⟩ | ⟨_, d, data, hd, _, he⟩
  · exact ⟨s.store, _, .same, by rw [he]; exact reply_next h _⟩
  · exact ⟨d, _, hd, by rw [he]; exact reply_next (s := { s with store := d }) h _⟩

/-- Without the active slot there is no sink, and the machine stops. -/
theorem exec_noSuchSlot {i : Instr} {s : State} (h : ¬s.active < s.engines.length) : exec i s = .fault .noSuchSlot := by
  rcases exec_answers i s with ⟨c, _, he⟩ | ⟨_, d, data, _, _, he⟩
  · rw [he]; exact reply_fault h _
  · rw [he]; exact reply_fault (s := { s with store := d }) h _

end Sys2Proof.Machine
end

