-- ==== Sys2Proof/Laws/Agents.lean ====
section
/-! SUPPORT. What the agents' steps can do, said once: an engine's turn, the device's set, and a step of the machine. -/

namespace Sys2Proof.Machine

/-- Changing an existing entry of a list is setting it. -/
theorem modify_eq_set {α} (l : List α) (k : Nat) (e : α) (f : α → α) (h : l[k]? = some e) : l.modify k f = l.set k (f e) := by
  apply List.ext_getElem?
  intro j
  rw [List.getElem?_modify, List.getElem?_set]
  have hk := (List.getElem?_eq_some_iff.1 h).1
  by_cases hj : k = j
  · subst hj; simp [hk, (List.getElem?_eq_some_iff.1 h).2]
  · simp [hj]

/-- The three ways a step can answer a next state: the agenda's event, the lowest draining engine, or waiting. -/
theorem step_cases {s t : State} (h : step s = .next t) :
  (∃ ev rest, s.agenda = ev :: rest ∧ perform ev {s with agenda := rest} = .next t) ∨
  (s.agenda = [] ∧ ∃ k, firstDraining s.engines = some k ∧ engineTurn k s = .next t) ∨
  (s.agenda = [] ∧ firstDraining s.engines = none ∧ t = s) := by
  unfold step nextStep at h
  split at h
  · rename_i ev rest he; exact .inl ⟨ev, rest, he, h⟩
  · rename_i he
    split at h
    · rename_i k hk; exact .inr (.inl ⟨he, k, hk, h⟩)
    · rename_i hk; cases h; exact .inr (.inr ⟨he, hk, rfl⟩)

/-- Everything an engine's turn can do. -/
theorem engineTurn_cases {s t : State} {k : Nat} (h : engineTurn k s = .next t) :
  ∃ e, s.engines[k]? = some e ∧
   ((e.phase = .idle ∧ t = s) ∨
    (e.phase = .drain ∧ decode e.rbuf = .incomplete ∧ t = { s with engines := s.engines.set k { e with phase := .idle } }) ∨
    (e.phase = .drain ∧ (∃ f, decode e.rbuf = .invalidFrame f) ∧ t = { s with engines := s.engines.set k e.connectionFault }) ∨
    (e.phase = .drain ∧ ∃ i r d bytes, decode e.rbuf = .request i r ∧ StoreStep s.store d ∧
       t = { s with store := d, active := k, engines := s.engines.set k { e with rbuf := r, out := e.out ++ [.frame bytes] } })) := by
  unfold engineTurn at h
  split at h
  · cases h
  · rename_i e he
    have hk := (List.getElem?_eq_some_iff.1 he).1
    refine ⟨e, he, ?_⟩
    split at h
    · rename_i hp; cases h; exact .inl ⟨hp, rfl⟩
    · rename_i hp
      unfold drainStep at h
      split at h
      · rename_i hd; cases h; exact .inr (.inl ⟨hp, hd, by simp [State.modifyEngine, modify_eq_set _ _ _ _ he]⟩)
      · rename_i f hd; cases h; exact .inr (.inr (.inl ⟨hp, ⟨f, hd⟩, by simp [State.modifyEngine, modify_eq_set _ _ _ _ he]⟩))
      · rename_i i r hd
        obtain ⟨d, f, hs, hx⟩ := exec_next (i := i) (s := { s.modifyEngine k (fun e => { e with rbuf := r }) with active := k })
          (by simp; exact hk)
        rw [hx] at h; cases h
        refine .inr (.inr (.inr ⟨hp, i, r, d, encodeFrame f, hd, hs, ?_⟩))
        simp [State.modifyEngine, State.send, modify_eq_set _ _ _ _ he]
        rw [modify_eq_set _ k {e with rbuf := r} _ (by simp [hk])]
        simp [Engine.push]

/-- Everything an open can do: on a slot that is not in use it leaves the state as it was. -/
theorem hostOpen_cases {s t : State} {k : Nat} (h : hostOpen k s = .next t) :
    ∃ e, s.engines[k]? = some e ∧ e.unused = true ∧ t = s := by
  unfold hostOpen at h
  split at h
  · cases h
  · rename_i e he
    split at h
    · rename_i hu
      cases h
      refine ⟨e, he, hu, ?_⟩
      obtain ⟨hk, rfl⟩ := List.getElem?_eq_some_iff.1 he
      rw [State.modifyEngine, modify_eq_set _ _ _ _ he, Engine.opened_of_unused hu, List.set_getElem_self]
    · cases h

/-- Everything the device's set on a bit bank can do. -/
theorem deviceSetBits_cases {s t : State} {b a vs} (h : deviceSetBits b a vs s = .next t) :
  (∃ r, t = s.answerDevice r) ∨ (b = .di ∧ ∃ c, s.store.di.set a vs = some c ∧ t = (s.withDi c).answerDevice .written) ∨
  (b = .co ∧ ∃ c, s.store.co.set a vs = some c ∧ t = (s.withCo c).answerDevice .written) := by
  unfold deviceSetBits at h
  cases b with
  | di =>
    cases hs : s.store.di.set a vs <;> simp [hs] at h
    · exact .inl ⟨_, h.symm⟩
    · exact .inr (.inl ⟨rfl, _, rfl, h.symm⟩)
  | co =>
    cases hs : s.store.co.set a vs <;> simp [hs] at h
    · exact .inl ⟨_, h.symm⟩
    · exact .inr (.inr ⟨rfl, _, rfl, h.symm⟩)

/-- Everything the device's set on a word bank can do. -/
theorem deviceSetWords_cases {s t : State} {b a vs} (h : deviceSetWords b a vs s = .next t) :
  (∃ r, t = s.answerDevice r) ∨ (b = .ir ∧ ∃ c, s.store.ir.set a vs = some c ∧ t = (s.withIr c).answerDevice .written) ∨
  (b = .hr ∧ ∃ c, s.store.hr.set a vs = some c ∧ t = (s.withHr c).answerDevice .written) := by
  unfold deviceSetWords at h
  cases b with
  | ir =>
    cases hs : s.store.ir.set a vs <;> simp [hs] at h
    · exact .inl ⟨_, h.symm⟩
    · exact .inr (.inl ⟨rfl, _, rfl, h.symm⟩)
  | hr =>
    cases hs : s.store.hr.set a vs <;> simp [hs] at h
    · exact .inl ⟨_, h.symm⟩
    · exact .inr (.inr ⟨rfl, _, rfl, h.symm⟩)

/-- Everything a step can do to the store and to the engines, and the event that does it. -/
inductive StepEffect (s t : State) : Prop
  /-- Neither the store nor an engine changes. -/
  | idle (h : t.store = s.store) (h2 : t.engines = s.engines)
  /-- Engine `k` takes its turn: no whole frame, an invalid frame, or a request. -/
  | eng (k : Nat) (e e' : Engine) (he : s.engines[k]? = some e) (h : StoreStep s.store t.store)
      (h2 : t.engines = s.engines.set k e')
      (hw : (e.phase = .drain ∧ decode e.rbuf = .incomplete ∧ e' = { e with phase := .idle } ∧ t.store = s.store) ∨
        (e.phase = .drain ∧ e' = e.connectionFault ∧ t.store = s.store) ∨
        (e.phase = .drain ∧ ∃ i r bytes, decode e.rbuf = .request i r ∧
          e' = { e with rbuf := r, out := e.out ++ [.frame bytes] }))
      (hag : (∃ rest, s.agenda = .engine k :: rest) ∨ s.agenda = []) (hact : t.active = k ∨ t.active = s.active)
  /-- The host closes slot `k`, or delivers a chunk that overflows or that fits. -/
  | host (k : Nat) (e e' : Engine) (he : s.engines[k]? = some e) (h : t.store = s.store)
      (h2 : t.engines = s.engines.set k e')
      (hw : (∃ rest, s.agenda = .connClose k :: rest ∧ e' = e.closed) ∨
        (∃ c rest, s.agenda = .process k c :: rest ∧ e.phase = .idle ∧ e.fault = false ∧
          overflows s.rbufCap (e.rbuf ++ c).length = true ∧ e' = e.connectionFault) ∨
        (∃ c rest, s.agenda = .process k c :: rest ∧ e.phase = .idle ∧ e.fault = false ∧
          overflows s.rbufCap (e.rbuf ++ c).length = false ∧ e' = { e with rbuf := e.rbuf ++ c, phase := .drain }))
      (hact : t.active = s.active)
  /-- The device sets cells of a bit bank. -/
  | devB (b a vs rest) (hag : s.agenda = .devSetBits b a vs :: rest) (h2 : t.engines = s.engines)
      (h : (b = .di ∧ ∃ c, s.store.di.set a vs = some c ∧ t.store = { s.store with di := c }) ∨
        (b = .co ∧ ∃ c, s.store.co.set a vs = some c ∧ t.store = { s.store with co := c }))
  /-- The device sets cells of a word bank. -/
  | devW (b a vs rest) (hag : s.agenda = .devSetWords b a vs :: rest) (h2 : t.engines = s.engines)
      (h : (b = .ir ∧ ∃ c, s.store.ir.set a vs = some c ∧ t.store = { s.store with ir := c }) ∨
        (b = .hr ∧ ∃ c, s.store.hr.set a vs = some c ∧ t.store = { s.store with hr := c }))

/-- The effect of a step that is an engine's turn. -/
theorem engineTurn_effect {s s' t : State} {k} (hst : s'.store = s.store) (hen : s'.engines = s.engines) (hac : s'.active = s.active)
   (hag : (∃ rest, s.agenda = .engine k :: rest) ∨ s.agenda = []) (h : engineTurn k s' = .next t) : StepEffect s t := by
  obtain ⟨e, he, hc⟩ := engineTurn_cases h
  rw [hen] at he
  rcases hc with ⟨hp, rfl⟩ | ⟨hp, hd, rfl⟩ | ⟨hp, hd, rfl⟩ | ⟨hp, i, r, d, bytes, hd, hs, rfl⟩
  · exact .idle hst hen
  · exact .eng k e _ he (by simp only; rw [hst]; exact .same) (by simp only; rw [hen]) (.inl ⟨hp, hd, rfl, hst⟩) hag (.inr hac)
  · exact .eng k e _ he (by simp only; rw [hst]; exact .same) (by simp only; rw [hen]) (.inr (.inl ⟨hp, rfl, hst⟩)) hag (.inr hac)
  · exact .eng k e _ he (by rw [← hst]; exact hs) (by simp only; rw [hen]) (.inr (.inr ⟨hp, i, r, bytes, hd, rfl⟩)) hag (.inl rfl)

/-- Every step that answers a next state has one of the effects of `StepEffect`. -/
theorem step_effect {s t : State} (h : step s = .next t) : StepEffect s t := by
  rcases step_cases h with ⟨ev, rest, hag, h⟩ | ⟨hag, k, _, h⟩ | ⟨_, _, rfl⟩
  · cases ev with
    | engine k => exact engineTurn_effect (s' := {s with agenda := rest}) rfl rfl rfl (.inl ⟨rest, hag⟩) h
    | connOpen k =>
      obtain ⟨_, _, _, rfl⟩ := hostOpen_cases h
      exact .idle rfl rfl
    | connClose k =>
      simp only [perform, hostClose] at h
      split at h
      · rename_i hk; cases h
        have he := List.getElem?_eq_getElem hk
        exact .host k _ _ he rfl (modify_eq_set _ _ _ _ he) (.inl ⟨rest, hag, rfl⟩) rfl
      · cases h
    | readFault k =>
      simp only [perform, hostReadFault] at h
      split at h
      · cases h
      · cases h; exact .idle rfl rfl
    | process k c =>
      simp only [perform, hostProcess] at h
      split at h
      · cases h
      · rename_i e he
        split at h
        · cases h
        · rename_i hp
          split at h
          · cases h; exact .idle rfl rfl
          · rename_i hf
            split at h
            · rename_i ho; cases h
              exact .host k e _ he rfl (modify_eq_set _ _ _ _ he) (.inr (.inl ⟨c, rest, hag, hp, by simpa using hf, ho, rfl⟩)) rfl
            · rename_i ho; cases h
              exact .host k e _ he rfl (modify_eq_set _ _ _ _ he) (.inr (.inr ⟨c, rest, hag, hp, by simpa using hf, by simpa using ho, rfl⟩)) rfl
    | devGet b a n => simp only [perform, deviceGet] at h; cases h; exact .idle rfl rfl
    | devSetBits b a vs =>
      rcases deviceSetBits_cases h with ⟨r, rfl⟩ | ⟨rfl, c, hc, rfl⟩ | ⟨rfl, c, hc, rfl⟩
      · exact .idle rfl rfl
      · exact .devB _ _ _ _ hag rfl (.inl ⟨rfl, c, hc, rfl⟩)
      · exact .devB _ _ _ _ hag rfl (.inr ⟨rfl, c, hc, rfl⟩)
    | devSetWords b a vs =>
      rcases deviceSetWords_cases h with ⟨r, rfl⟩ | ⟨rfl, c, hc, rfl⟩ | ⟨rfl, c, hc, rfl⟩
      · exact .idle rfl rfl
      · exact .devW _ _ _ _ hag rfl (.inl ⟨rfl, c, hc, rfl⟩)
      · exact .devW _ _ _ _ hag rfl (.inr ⟨rfl, c, hc, rfl⟩)
  · exact engineTurn_effect rfl rfl rfl (.inr hag) h
  · exact .idle rfl rfl

end Sys2Proof.Machine
end

