-- ==== Sys2Proof/Laws/PerInstr.lean ====
section
/-! SUPPORT. A statement about every instruction as syntax, one lemma per constructor: the frame of a well-formed instruction is
structurally valid (40_frame_codec.md R64). -/

namespace Sys2Proof

/-- The data of a well-formed range access fits in a structurally valid frame. -/
theorem RangeOps.data_length {ops : RangeOps} (h : ops.wellFormed = true) : ops.data.length ≤ maxData := by
  cases ops with
  | fields addr count => simp [RangeOps.data, maxData]
  | misfit d => simp only [RangeOps.wellFormed, Bool.and_eq_true, decide_eq_true_eq] at h; exact h.2

/-- The data of a well-formed single write fits in a structurally valid frame. -/
theorem SingleOps.data_length {ops : SingleOps} (h : ops.wellFormed = true) : ops.data.length ≤ maxData := by
  cases ops with
  | fields addr value => simp [SingleOps.data, maxData]
  | misfit d => simp only [SingleOps.wellFormed, Bool.and_eq_true, decide_eq_true_eq] at h; exact h.2

/-- The data of a well-formed multiple write fits in a structurally valid frame. -/
theorem MultiOps.data_length {ops : MultiOps} (h : ops.wellFormed = true) : ops.data.length ≤ maxData := by
  cases ops with
  | fields addr count bc payload =>
    simp only [MultiOps.wellFormed, decide_eq_true_eq] at h
    simp only [MultiOps.data, List.length_append, bytes16_length, List.length_cons]; omega
  | misfit d =>
    simp only [MultiOps.wellFormed, decide_eq_true_eq] at h
    simp only [MultiOps.data, maxData]; omega

end Sys2Proof

namespace Sys2Proof.Laws.FrameIsValid

/-- The frame of a well-formed instruction is structurally valid. -/
def Statement (i : Instr) : Prop := i.wellFormed = true → i.toFrame.isValid = true

theorem readCoils (t : Tag) (ops : RangeOps) : Statement (.readCoils t ops) :=
  fun h => mkFrame_isValid _ _ (RangeOps.data_length h)

theorem readDiscreteInputs (t : Tag) (ops : RangeOps) : Statement (.readDiscreteInputs t ops) :=
  fun h => mkFrame_isValid _ _ (RangeOps.data_length h)

theorem readHoldingRegisters (t : Tag) (ops : RangeOps) : Statement (.readHoldingRegisters t ops) :=
  fun h => mkFrame_isValid _ _ (RangeOps.data_length h)

theorem readInputRegisters (t : Tag) (ops : RangeOps) : Statement (.readInputRegisters t ops) :=
  fun h => mkFrame_isValid _ _ (RangeOps.data_length h)

theorem writeSingleCoil (t : Tag) (ops : SingleOps) : Statement (.writeSingleCoil t ops) :=
  fun h => mkFrame_isValid _ _ (SingleOps.data_length h)

theorem writeSingleRegister (t : Tag) (ops : SingleOps) : Statement (.writeSingleRegister t ops) :=
  fun h => mkFrame_isValid _ _ (SingleOps.data_length h)

theorem writeMultipleCoils (t : Tag) (ops : MultiOps) : Statement (.writeMultipleCoils t ops) :=
  fun h => mkFrame_isValid _ _ (MultiOps.data_length h)

theorem writeMultipleRegisters (t : Tag) (ops : MultiOps) : Statement (.writeMultipleRegisters t ops) :=
  fun h => mkFrame_isValid _ _ (MultiOps.data_length h)

theorem illegalFunction (t : Tag) (fc : U8) (d : List U8) : Statement (.illegalFunction t fc d) := by
  intro h
  simp only [Instr.wellFormed, Bool.and_eq_true, decide_eq_true_eq] at h
  exact mkFrame_isValid _ _ h.2

end Sys2Proof.Laws.FrameIsValid
end

