-- ==== Sys2Proof/Tests/Slice0.lean ====
section
/-! SUPPORT. Tests: the well-formedness checks, words written out from the encoding tables, one-step vectors of 95_test_vectors.md
(named in each docstring), and for every obligation with hypotheses a concrete state and operands that meet them. -/

namespace Sys2Proof.Tests

open Sys2Proof Sys2Proof.Machine

/-! ### Helpers -/

/-- The next state of an outcome. -/
def next? : Host.Outcome State Fault Refusal → Option State
  | .next t => some t
  | _ => none

/-- The fault of an outcome. -/
def fault? : Host.Outcome State Fault Refusal → Option Fault
  | .fault r => some r
  | _ => none

/-- The reset state with other cells in the four banks. -/
def holding (di co : List (Nat × Bit)) (ir hr : List (Nat × U16)) : State :=
  { State.reset with store :=
    { di := { cap := 0x10000, cells := di }, co := { cap := 0x10000, cells := co },
      ir := { cap := 0x10000, cells := ir }, hr := { cap := 0x10000, cells := hr } } }

/-- A machine of two slots whose banks have 16 cells and whose buffers take 20 bytes. -/
def small : State := State.initial { nConn := 2, capDi := 16, capCo := 16, capIr := 16, capHr := 16, rbufCap := some 20 }

/-- Slot 0 drains `buf`. -/
def draining (s : State) (buf : List U8) : State :=
  s.modifyEngine 0 fun e => { e with rbuf := buf, phase := .drain }

/-- Slot 0 waits with `buf` in its buffer. -/
def waiting (s : State) (buf : List U8) : State := s.modifyEngine 0 fun e => { e with rbuf := buf }

/-- Slot 0 is faulted. -/
def faulted (s : State) : State := s.modifyEngine 0 Engine.connectionFault

/-- The same machine with `ev` next. -/
def scheduled (s : State) (ev : Event) : State := { s with agenda := [ev] }

/-- The request runs in one step; the answer is what slot 0 has sent. -/
def sent (s : State) (request : List U8) : Option (List OutItem) :=
  (next? (step (s.withRequestBytes request))).bind fun t => (t.engines[0]?).map (·.out)

/-- The store after the request has run in one step. -/
def storeAfter (s : State) (request : List U8) : Option DataStore :=
  (next? (step (s.withRequestBytes request))).map (·.store)

/-- The engine of slot 0 after one step. -/
def engineAfter (s : State) : Option Engine := (next? (step s)).bind fun t => t.engines[0]?

/-! ### WellFormed: each check refuses an ill-formed term -/

theorem test_wf_accepts :
    (Instr.readCoils ⟨1, 1⟩ (.fields 0 10)).wellFormed = true ∧ (Instr.illegalFunction ⟨1, 1⟩ 0x99 [0xDE]).wellFormed = true := by
  decide

theorem test_wf_rangeMisfitOfLengthFour :
    (Instr.readCoils ⟨1, 1⟩ (.misfit [0, 0, 0, 1])).wellFormed = false ∧
    (Instr.readDiscreteInputs ⟨1, 1⟩ (.misfit [0, 0, 0, 1])).wellFormed = false ∧
    (Instr.readHoldingRegisters ⟨1, 1⟩ (.misfit [0, 0, 0, 1])).wellFormed = false ∧
    (Instr.readInputRegisters ⟨1, 1⟩ (.misfit [0, 0, 0, 1])).wellFormed = false := by decide

theorem test_wf_rangeMisfitTooLong :
    (Instr.readHoldingRegisters ⟨1, 1⟩ (.misfit (List.replicate 259 0))).wellFormed = false := by
  simp [-List.reduceReplicate, Instr.wellFormed, RangeOps.wellFormed, maxData]

theorem test_wf_singleMisfitOfLengthFour :
    (Instr.writeSingleCoil ⟨1, 1⟩ (.misfit [0, 0, 0xFF, 0])).wellFormed = false ∧
    (Instr.writeSingleRegister ⟨1, 1⟩ (.misfit [0, 0, 0, 1])).wellFormed = false := by decide

theorem test_wf_singleMisfitTooLong :
    (Instr.writeSingleRegister ⟨1, 1⟩ (.misfit (List.replicate 259 0))).wellFormed = false := by
  simp [-List.reduceReplicate, Instr.wellFormed, SingleOps.wellFormed, maxData]

theorem test_wf_multiMisfitOfLengthFive :
    (Instr.writeMultipleCoils ⟨1, 1⟩ (.misfit [0, 0, 0, 1, 0])).wellFormed = false ∧
    (Instr.writeMultipleRegisters ⟨1, 1⟩ (.misfit [0, 0, 0, 1, 0])).wellFormed = false := by decide

theorem test_wf_multiPayloadTooLong :
    (Instr.writeMultipleCoils ⟨1, 1⟩ (.fields 0 1 1 (List.replicate 254 0))).wellFormed = false := by
  simp [-List.reduceReplicate, Instr.wellFormed, MultiOps.wellFormed, maxData]

theorem test_wf_illegalFunctionWithSupportedCode :
    (Instr.illegalFunction ⟨1, 1⟩ 0x03 [0, 0, 0, 1]).wellFormed = false := by decide

theorem test_wf_illegalFunctionTooLong :
    (Instr.illegalFunction ⟨1, 1⟩ 0x99 (List.replicate 259 0)).wellFormed = false := by
  simp [-List.reduceReplicate, Instr.wellFormed, maxData]

/-! ### Decode: words written out from 30_encoding.md (R43 and the operand formats), and the encoder on the same words -/

/-- V34: function code 0x01, format RA. -/
theorem test_decode_readCoils :
    decode [0x00, 0x01, 0x00, 0x00, 0x00, 0x06, 0x01, 0x01, 0x00, 0x00, 0x00, 0x0A] =
      .request (.readCoils ⟨0x0001, 0x01⟩ (.fields 0x0000 0x000A)) [] ∧
    encode (.readCoils ⟨0x0001, 0x01⟩ (.fields 0x0000 0x000A)) =
      [0x00, 0x01, 0x00, 0x00, 0x00, 0x06, 0x01, 0x01, 0x00, 0x00, 0x00, 0x0A] := by decide

/-- V35: function code 0x02, format RA. -/
theorem test_decode_readDiscreteInputs :
    decode [0x00, 0x02, 0x00, 0x00, 0x00, 0x06, 0x01, 0x02, 0x00, 0x10, 0x00, 0x03] =
      .request (.readDiscreteInputs ⟨0x0002, 0x01⟩ (.fields 0x0010 0x0003)) [] := by decide

/-- W1: function code 0x03, format RA; bits above the low byte of each field are kept. -/
theorem test_decode_readHoldingRegisters :
    decode [0x12, 0x34, 0x00, 0x00, 0x00, 0x06, 0x11, 0x03, 0xAB, 0xCD, 0x01, 0x02] =
      .request (.readHoldingRegisters ⟨0x1234, 0x11⟩ (.fields 0xABCD 0x0102)) [] := by decide

/-- V40: function code 0x04, format RA. -/
theorem test_decode_readInputRegisters :
    decode [0x00, 0x06, 0x00, 0x00, 0x00, 0x06, 0x01, 0x04, 0x01, 0x00, 0x00, 0x01] =
      .request (.readInputRegisters ⟨0x0006, 0x01⟩ (.fields 0x0100 0x0001)) [] := by decide

/-- V41: function code 0x05, format WS. -/
theorem test_decode_writeSingleCoil :
    decode [0x00, 0x0A, 0x00, 0x00, 0x00, 0x06, 0x01, 0x05, 0x00, 0x03, 0xFF, 0x00] =
      .request (.writeSingleCoil ⟨0x000A, 0x01⟩ (.fields 0x0003 0xFF00)) [] := by decide

/-- P2: function code 0x06, format WS. -/
theorem test_decode_writeSingleRegister :
    decode [0x00, 0x11, 0x00, 0x00, 0x00, 0x06, 0x05, 0x06, 0x00, 0x01, 0xBE, 0xEF] =
      .request (.writeSingleRegister ⟨0x0011, 0x05⟩ (.fields 0x0001 0xBEEF)) [] := by decide

/-- V54: function code 0x0F, format WM. -/
theorem test_decode_writeMultipleCoils :
    decode [0x00, 0x0C, 0x00, 0x00, 0x00, 0x09, 0x01, 0x0F, 0x00, 0x00, 0x00, 0x0A, 0x02, 0x4D, 0xFF] =
      .request (.writeMultipleCoils ⟨0x000C, 0x01⟩ (.fields 0x0000 0x000A 0x02 [0x4D, 0xFF])) [] := by decide

/-- V63: function code 0x10, format WM. -/
theorem test_decode_writeMultipleRegisters :
    decode [0x00, 0x0D, 0x00, 0x00, 0x00, 0x0B, 0x01, 0x10, 0xFF, 0xFE, 0x00, 0x02, 0x04, 0x00, 0x01, 0x00, 0x02] =
      .request (.writeMultipleRegisters ⟨0x000D, 0x01⟩ (.fields 0xFFFE 0x0002 0x04 [0x00, 0x01, 0x00, 0x02])) [] := by
  decide

/-- W8: an unassigned function code; V52: data that misfits its format is still that instruction. -/
theorem test_decode_others :
    decode [0x10, 0x99, 0x00, 0x00, 0x00, 0x04, 0xFF, 0x99, 0xDE, 0xAD] =
      .request (.illegalFunction ⟨0x1099, 0xFF⟩ 0x99 [0xDE, 0xAD]) [] ∧
    decode [0x00, 0x0C, 0x00, 0x00, 0x00, 0x06, 0x01, 0x0F, 0x00, 0x00, 0x00, 0x01] =
      .request (.writeMultipleCoils ⟨0x000C, 0x01⟩ (.misfit [0x00, 0x00, 0x00, 0x01])) [] := by decide

/-- V2, V3, V4: an incomplete frame; a frame followed by another byte; the shortest valid frame. -/
theorem test_decodeFrame_lengths :
    decodeFrame [0x00, 0x01, 0x00, 0x00, 0x00, 0x06, 0x01, 0x03, 0x00] = none ∧
    decodeFrame [0x00, 0x01, 0x00, 0x00, 0x00, 0x06, 0x01, 0x03, 0x00, 0x00, 0x00, 0x02, 0xAA] =
      some (⟨1, 0, 6, 1, 3, [0x00, 0x00, 0x00, 0x02]⟩, [0xAA]) ∧
    decodeFrame [0x00, 0x01, 0x00, 0x00, 0x00, 0x02, 0x01, 0x03] = some (⟨1, 0, 2, 1, 3, []⟩, []) := by decide

/-- V5, V8, V9 and length 261: what `is_valid` refuses and accepts. -/
theorem test_isValid :
    Frame.isValid ⟨7, 0, 0, 1, 3, []⟩ = false ∧ Frame.isValid ⟨1, 0, 260, 1, 3, List.replicate 258 0⟩ = true ∧
    Frame.isValid ⟨1, 1, 6, 1, 3, [0, 0, 0, 1]⟩ = false ∧ Frame.isValid ⟨1, 0, 261, 1, 3, List.replicate 259 0⟩ = false ∧
    Frame.isValid ⟨1, 0, 6, 1, 3, [0, 0, 0]⟩ = false := by simp [-List.reduceReplicate, Frame.isValid, minLen]

/-- V10: the bytes of a frame. -/
theorem test_encodeFrame : encodeFrame ⟨0x1234, 0, 3, 0x11, 0x83, [0x02]⟩ =
    [0x12, 0x34, 0x00, 0x00, 0x00, 0x03, 0x11, 0x83, 0x02] := by decide

/-- opcode_table.json: the function-code byte of each kind of row selects its instruction. -/
theorem test_decodeTableWord :
    decodeTableWord 8 0x01 = some (.readCoils ⟨0, 0⟩ (.fields 0 0)) ∧
    decodeTableWord 8 0x06 = some (.writeSingleRegister ⟨0, 0⟩ (.fields 0 0)) ∧
    decodeTableWord 8 0x0F = some (.writeMultipleCoils ⟨0, 0⟩ (.fields 0 0 0 [])) ∧
    decodeTableWord 8 0x10 = some (.writeMultipleRegisters ⟨0, 0⟩ (.fields 0 0 0 [])) ∧
    decodeTableWord 8 0x00 = some (.illegalFunction ⟨0, 0⟩ 0x00 []) ∧
    decodeTableWord 8 0x80 = some (.illegalFunction ⟨0, 0⟩ 0x80 []) := by decide

/-! ### The instructions -/

/-- V34: ten coils, packed least significant bit first, padding 0. -/
theorem test_readCoils : sent (holding [] [(0, 1), (2, 1), (3, 1), (6, 1), (8, 1), (9, 1)] [] [])
    [0x00, 0x01, 0x00, 0x00, 0x00, 0x06, 0x01, 0x01, 0x00, 0x00, 0x00, 0x0A] =
    some [.frame [0x00, 0x01, 0x00, 0x00, 0x00, 0x05, 0x01, 0x01, 0x02, 0x4D, 0x03]] := by decide

/-- V30: count 0 at the edge is DATA_VALUE, not DATA_ADDRESS. -/
theorem test_readCoils_checkOrder : sent State.reset
    [0x00, 0x01, 0x00, 0x00, 0x00, 0x06, 0x01, 0x01, 0xFF, 0xFF, 0x00, 0x00] =
    some [.frame [0x00, 0x01, 0x00, 0x00, 0x00, 0x03, 0x01, 0x81, 0x03]] := by decide

/-- V35: three discrete inputs, from the DI bank. -/
theorem test_readDiscreteInputs : sent (holding [(0x10, 1), (0x11, 1)] [] [] [])
    [0x00, 0x02, 0x00, 0x00, 0x00, 0x06, 0x01, 0x02, 0x00, 0x10, 0x00, 0x03] =
    some [.frame [0x00, 0x02, 0x00, 0x00, 0x00, 0x04, 0x01, 0x02, 0x01, 0x03]] := by decide

/-- V36: a range that ends past the bank is DATA_ADDRESS. -/
theorem test_readDiscreteInputs_range : sent State.reset
    [0x00, 0x02, 0x00, 0x00, 0x00, 0x06, 0x01, 0x02, 0xFF, 0xF0, 0x00, 0x11] =
    some [.frame [0x00, 0x02, 0x00, 0x00, 0x00, 0x03, 0x01, 0x82, 0x02]] := by decide

/-- W1: two holding registers, big-endian, lower address first. -/
theorem test_readHoldingRegisters : sent (holding [] [] [] [(0, 0x1234), (1, 0xABCD)])
    [0x00, 0x05, 0x00, 0x00, 0x00, 0x06, 0x11, 0x03, 0x00, 0x00, 0x00, 0x02] =
    some [.frame [0x00, 0x05, 0x00, 0x00, 0x00, 0x07, 0x11, 0x03, 0x04, 0x12, 0x34, 0xAB, 0xCD]] := by decide

/-- W4: 126 registers are one too many. -/
theorem test_readHoldingRegisters_count : sent State.reset
    [0x00, 0x03, 0x00, 0x00, 0x00, 0x06, 0x01, 0x03, 0x00, 0x00, 0x00, 0x7E] =
    some [.frame [0x00, 0x03, 0x00, 0x00, 0x00, 0x03, 0x01, 0x83, 0x03]] := by decide

/-- V40: an input register, from the IR bank. -/
theorem test_readInputRegisters : sent (holding [] [] [(0x100, 0x00FF)] [])
    [0x00, 0x06, 0x00, 0x00, 0x00, 0x06, 0x01, 0x04, 0x01, 0x00, 0x00, 0x01] =
    some [.frame [0x00, 0x06, 0x00, 0x00, 0x00, 0x05, 0x01, 0x04, 0x02, 0x00, 0xFF]] := by decide

/-- V45: the highest coil is set and the request is echoed. -/
theorem test_writeSingleCoil :
    sent State.reset [0x00, 0x0A, 0x00, 0x00, 0x00, 0x06, 0x01, 0x05, 0xFF, 0xFF, 0xFF, 0x00] =
      some [.frame [0x00, 0x0A, 0x00, 0x00, 0x00, 0x06, 0x01, 0x05, 0xFF, 0xFF, 0xFF, 0x00]] ∧
    storeAfter State.reset [0x00, 0x0A, 0x00, 0x00, 0x00, 0x06, 0x01, 0x05, 0xFF, 0xFF, 0xFF, 0x00] =
      some (holding [] [(0xFFFF, 1)] [] []).store := by decide

/-- V43: 0x00FF is no coil value. -/
theorem test_writeSingleCoil_value : sent State.reset
    [0x00, 0x0A, 0x00, 0x00, 0x00, 0x06, 0x01, 0x05, 0x00, 0x03, 0x00, 0xFF] =
    some [.frame [0x00, 0x0A, 0x00, 0x00, 0x00, 0x03, 0x01, 0x85, 0x03]] := by decide

/-- V47: the highest register takes 0xFFFF and the request is echoed. -/
theorem test_writeSingleRegister :
    sent State.reset [0x00, 0x0B, 0x00, 0x00, 0x00, 0x06, 0x01, 0x06, 0xFF, 0xFF, 0xFF, 0xFF] =
      some [.frame [0x00, 0x0B, 0x00, 0x00, 0x00, 0x06, 0x01, 0x06, 0xFF, 0xFF, 0xFF, 0xFF]] ∧
    storeAfter State.reset [0x00, 0x0B, 0x00, 0x00, 0x00, 0x06, 0x01, 0x06, 0xFF, 0xFF, 0xFF, 0xFF] =
      some (holding [] [] [] [(0xFFFF, 0xFFFF)]).store := by decide

/-- P5: address 16 does not exist in a bank of 16 registers. -/
theorem test_writeSingleRegister_range : sent small
    [0x00, 0x03, 0x00, 0x00, 0x00, 0x06, 0x01, 0x06, 0x00, 0x10, 0x00, 0x05] =
    some [.frame [0x00, 0x03, 0x00, 0x00, 0x00, 0x03, 0x01, 0x86, 0x02]] := by decide

/-- V54: ten coils from two payload bytes, the unused bits ignored. -/
theorem test_writeMultipleCoils :
    sent State.reset [0x00, 0x0C, 0x00, 0x00, 0x00, 0x09, 0x01, 0x0F, 0x00, 0x00, 0x00, 0x0A, 0x02, 0x4D, 0xFF] =
      some [.frame [0x00, 0x0C, 0x00, 0x00, 0x00, 0x06, 0x01, 0x0F, 0x00, 0x00, 0x00, 0x0A]] ∧
    storeAfter State.reset [0x00, 0x0C, 0x00, 0x00, 0x00, 0x09, 0x01, 0x0F, 0x00, 0x00, 0x00, 0x0A, 0x02, 0x4D, 0xFF] =
      some (holding [] [(0, 1), (2, 1), (3, 1), (6, 1), (8, 1), (9, 1)] [] []).store := by decide

/-- V50: a byte count that does not fit the count. -/
theorem test_writeMultipleCoils_byteCount : sent State.reset
    [0x00, 0x0C, 0x00, 0x00, 0x00, 0x08, 0x01, 0x0F, 0x00, 0x00, 0x00, 0x08, 0x02, 0xFF] =
    some [.frame [0x00, 0x0C, 0x00, 0x00, 0x00, 0x03, 0x01, 0x8F, 0x03]] := by decide

/-- V63: two registers at the top of the bank. -/
theorem test_writeMultipleRegisters :
    sent State.reset
      [0x00, 0x0D, 0x00, 0x00, 0x00, 0x0B, 0x01, 0x10, 0xFF, 0xFE, 0x00, 0x02, 0x04, 0x00, 0x01, 0x00, 0x02] =
      some [.frame [0x00, 0x0D, 0x00, 0x00, 0x00, 0x06, 0x01, 0x10, 0xFF, 0xFE, 0x00, 0x02]] ∧
    storeAfter State.reset
      [0x00, 0x0D, 0x00, 0x00, 0x00, 0x0B, 0x01, 0x10, 0xFF, 0xFE, 0x00, 0x02, 0x04, 0x00, 0x01, 0x00, 0x02] =
      some (holding [] [] [] [(0xFFFE, 1), (0xFFFF, 2)]).store := by decide

/-- V62: a write that would end past the bank writes nothing. -/
theorem test_writeMultipleRegisters_range :
    sent State.reset
      [0x00, 0x0D, 0x00, 0x00, 0x00, 0x0B, 0x01, 0x10, 0xFF, 0xFF, 0x00, 0x02, 0x04, 0x00, 0x01, 0x00, 0x02] =
      some [.frame [0x00, 0x0D, 0x00, 0x00, 0x00, 0x03, 0x01, 0x90, 0x02]] ∧
    storeAfter State.reset
      [0x00, 0x0D, 0x00, 0x00, 0x00, 0x0B, 0x01, 0x10, 0xFF, 0xFF, 0x00, 0x02, 0x04, 0x00, 0x01, 0x00, 0x02] =
      some State.reset.store := by decide

/-- W8: 0x99 | 0x80 is 0x99. -/
theorem test_illegalFunction : sent State.reset [0x10, 0x99, 0x00, 0x00, 0x00, 0x04, 0xFF, 0x99, 0xDE, 0xAD] =
    some [.frame [0x10, 0x99, 0x00, 0x00, 0x00, 0x03, 0xFF, 0x99, 0x01]] := by decide

/-- V66: a request without data. -/
theorem test_illegalFunction_noData : sent State.reset [0x00, 0x2A, 0x00, 0x00, 0x00, 0x02, 0x01, 0x07] =
    some [.frame [0x00, 0x2A, 0x00, 0x00, 0x00, 0x03, 0x01, 0x87, 0x01]] := by decide

/-! ### The engine, the host and the device -/

/-- V16: after the frame is answered the next frame's first bytes stay. -/
theorem test_engine_leftover : engineAfter (scheduled (draining State.reset
    [0x00, 0x01, 0x00, 0x00, 0x00, 0x06, 0x01, 0x03, 0x00, 0x00, 0x00, 0x01, 0x00, 0x02, 0x00, 0x00, 0x00, 0x06])
    (.engine 0)) =
    some ⟨[0x00, 0x02, 0x00, 0x00, 0x00, 0x06], .drain, false,
      [.frame [0x00, 0x01, 0x00, 0x00, 0x00, 0x05, 0x01, 0x03, 0x02, 0x00, 0x00]]⟩ := by decide

/-- V18, its second frame: protocol id 1 faults the connection and discards what follows. -/
theorem test_engine_invalidFrame : engineAfter (scheduled (draining State.reset
    [0x00, 0x02, 0x00, 0x01, 0x00, 0x06, 0x01, 0x06, 0x00, 0x00, 0x00, 0x02, 0x00, 0x03]) (.engine 0)) =
    some ⟨[], .idle, true, []⟩ := by decide

/-- V21, V22: lengths 0 and 1 fault the connection. -/
theorem test_engine_shortLength :
    engineAfter (draining State.reset [0x00, 0x01, 0x00, 0x00, 0x00, 0x00, 0x01, 0x03]) = some ⟨[], .idle, true, []⟩ ∧
    engineAfter (draining State.reset [0x00, 0x01, 0x00, 0x00, 0x00, 0x01, 0x01, 0x03]) = some ⟨[], .idle, true, []⟩ := by
  decide

/-- V23: length 261 with the header alone only waits. -/
theorem test_engine_longLength :
    engineAfter (draining State.reset [0x00, 0x01, 0x00, 0x00, 0x01, 0x05, 0x01, 0x03]) =
      some ⟨[0x00, 0x01, 0x00, 0x00, 0x01, 0x05, 0x01, 0x03], .idle, false, []⟩ := by decide

/-- V25: with a buffer of 20 bytes a chunk of 21 faults the connection and one of 20 does not. -/
theorem test_process_overflow :
    engineAfter (scheduled small (.process 0 (List.replicate 21 0))) = some ⟨[], .idle, true, []⟩ ∧
    engineAfter (scheduled small (.process 0 (List.replicate 20 0))) = some ⟨List.replicate 20 0, .drain, false, []⟩ := by
  decide

/-- V19: a faulted engine discards what it is given. -/
theorem test_process_faulted : engineAfter (scheduled (faulted State.reset) (.process 0 [0x00, 0x04])) =
    some ⟨[], .idle, true, []⟩ := by decide

/-- V20: a close clears the fault and the buffer and is logged. 70_reset_and_hazards.md R104, R105: a slot that was never in use, or
that is closed, may be opened. -/
theorem test_close_open :
    engineAfter (scheduled (faulted State.reset) (.connClose 0)) = some ⟨[], .idle, false, [.close]⟩ ∧
    engineAfter (scheduled State.reset (.connOpen 0)) = some ⟨[], .idle, false, []⟩ ∧
    engineAfter (scheduled ((faulted State.reset).modifyEngine 0 Engine.closed) (.connOpen 0)) =
      some ⟨[], .idle, false, [.close]⟩ := by decide

/-- 41_engine.md R73, 60_exceptions.md R95: an open clears no fault. -/
theorem test_open_faulted : fault? (step (scheduled (faulted State.reset) (.connOpen 0))) = some .openWithoutClose := by decide

/-- 60_exceptions.md R102: the host reads the fault bit. -/
theorem test_readFault : (next? (step (scheduled (faulted State.reset) (.readFault 0)))).map (·.hostOut) = some [(0, true)] := by
  decide

/-- 70_reset_and_hazards.md R107 and R105, 60_exceptions.md R100: the stops of the model. -/
theorem test_stops :
    fault? (step (scheduled (draining State.reset []) (.process 0 []))) = some .processWhileDraining ∧
    fault? (step (scheduled (waiting State.reset [0x00]) (.connOpen 0))) = some .openWithoutClose ∧
    fault? (step (scheduled State.reset (.engine 2))) = some .noSuchSlot := by decide

/-- W5: `get(0xFFFF, 2)` fails and `get(0xFFFE, 2)` succeeds. -/
theorem test_device_get :
    (next? (step (scheduled State.reset (.devGet .hr 0xFFFF 2)))).map (·.deviceOut) = some [.addressRangeError] ∧
    (next? (step (scheduled (holding [] [] [] [(0xFFFE, 7)]) (.devGet .hr 0xFFFE 2)))).map (·.deviceOut) =
      some [.words [7, 0]] := by decide

/-- R27, R11: the device sets input registers; a set that ends past the bank changes nothing. -/
theorem test_device_set :
    (next? (step (scheduled small (.devSetWords .ir 14 [1, 2])))).map (·.store.ir.cells) = some [(14, 1), (15, 2)] ∧
    (next? (step (scheduled small (.devSetWords .ir 15 [1, 2])))).map (·.store.ir.cells) = some [] ∧
    (next? (step (scheduled small (.devSetBits .di (-1) [1])))).map (·.deviceOut) = some [.addressRangeError] := by decide

/-- The cells stay canonical: writing 0 removes the entry. -/
theorem test_bank_canonical :
    (Bank.set (w := 16) { cap := 16, cells := [(3, 5), (7, 9)] } 2 [1, 0]).map (·.cells) = some [(2, 1), (7, 9)] := by decide

/-! ### Witnesses: concrete states and operands that meet the hypotheses of each obligation, at the edges of their ranges -/

/-- The frame of V3. -/
def readFrame : List U8 := [0x00, 0x01, 0x00, 0x00, 0x00, 0x06, 0x01, 0x03, 0x00, 0x00, 0x00, 0x02]

/-- The instruction of V3. -/
def readInstr : Instr := .readHoldingRegisters ⟨1, 1⟩ (.fields 0 2)

theorem witness_EncodedRequestDecodesBack :
    readInstr.wellFormed = true ∧ (Instr.readCoils ⟨0, 0⟩ (.misfit [])).wellFormed = true ∧
    (Instr.writeSingleCoil ⟨0, 0⟩ (.misfit (List.replicate 258 0))).wellFormed = true ∧
    (Instr.writeMultipleCoils ⟨0, 0⟩ (.fields 0 0 0 (List.replicate 253 0))).wellFormed = true ∧
    (Instr.illegalFunction ⟨0, 0⟩ 0xFF (List.replicate 258 0)).wellFormed = true := by
  simp [-List.reduceReplicate, Instr.wellFormed, RangeOps.wellFormed, SingleOps.wellFormed, MultiOps.wellFormed, maxData,
    readInstr, supported]

theorem witness_DecodedRequestEncodesBack : decode (readFrame ++ [0xAA]) = .request readInstr [0xAA] := by decide

theorem witness_WholeFrameEncodesBack :
    ∃ x : List U8, 2 ≤ (be16 (x.getD 4 0) (x.getD 5 0)).toNat ∧ x.length = 6 + (be16 (x.getD 4 0) (x.getD 5 0)).toNat :=
  ⟨readFrame, by decide⟩

/-- The shortest frame: length 2. -/
theorem witness_WholeFrameEncodesBack_shortest :
    ∃ x : List U8, (be16 (x.getD 4 0) (x.getD 5 0)).toNat = 2 ∧ x.length = 6 + (be16 (x.getD 4 0) (x.getD 5 0)).toNat :=
  ⟨[0, 1, 0, 0, 0, 2, 1, 3], by decide⟩

/-- 7 bytes, and one byte short of a frame of length 6, are incomplete; 8 bytes with length 2 are not. -/
theorem witness_IncompleteFrameConsumesNothing :
    (∃ (s : State) (e : Engine), s.engines[0]? = some e ∧ e.phase = .drain ∧ decodeFrame e.rbuf = none ∧ e.rbuf.length = 7) ∧
    (∃ (s : State) (e : Engine), s.engines[0]? = some e ∧ e.phase = .drain ∧ decodeFrame e.rbuf = none ∧ e.rbuf.length = 11) ∧
    decodeFrame [0, 1, 0, 0, 0, 2, 1, 3] ≠ none :=
  ⟨⟨draining State.reset (readFrame.take 7), _, rfl, by decide, by decide, by decide⟩,
    ⟨draining State.reset (readFrame.take 11), _, rfl, by decide, by decide, by decide⟩, by decide⟩

theorem witness_WholeFrameIsRemoved :
    (∃ (buf : List U8) (l : Nat), l = (be16 (buf.getD 4 0) (buf.getD 5 0)).toNat ∧ 8 ≤ buf.length ∧ 2 ≤ l ∧ 6 + l ≤ buf.length) ∧
    ∃ (buf : List U8) (l : Nat), l = (be16 (buf.getD 4 0) (buf.getD 5 0)).toNat ∧ buf.length = 8 ∧ l = 2 :=
  ⟨⟨readFrame ++ [0xAA], 6, by decide⟩, ⟨[0, 1, 0, 0, 0, 2, 1, 3], 2, by decide⟩⟩

theorem witness_ShortLengthTakesHeaderOnly : ∀ l ∈ [(0 : U8), 1], 8 ≤ [0, 7, 0, 0, 0, l, 1, 3].length ∧
    (be16 ([0, 7, 0, 0, 0, l, 1, 3].getD 4 0) ([0, 7, 0, 0, 0, l, 1, 3].getD 5 0)).toNat < 2 := by decide

/-- Lengths 2 and 260 with protocol id 0, and lengths 1 and 261 and protocol id 1: each is decoded from some buffer. -/
theorem witness_DecodedFrameValidity :
    ∀ f ∈ [(⟨1, 0, 2, 1, 3, []⟩ : Frame), ⟨1, 0, 260, 1, 3, List.replicate 258 0⟩, ⟨1, 0, 1, 1, 3, []⟩,
      ⟨1, 0, 261, 1, 3, List.replicate 259 0⟩, ⟨1, 1, 6, 1, 3, [0, 0, 0, 1]⟩],
      ∃ buf rest, decodeFrame buf = some (f, rest) := by
  intro f hf
  refine ⟨encodeFrame f ++ [], [], decodeFrame_encodeFrame ?_ []⟩
  simp [-List.reduceReplicate] at hf
  rcases hf with rfl | rfl | rfl | rfl | rfl <;> simp [-List.reduceReplicate]

theorem witness_OperandFormats :
    ([0, 1, 2, 3] : List U8).length = 4 ∧ ([0, 1, 2] : List U8).length ≠ 4 ∧ ([0, 1, 2, 3, 4] : List U8).length ≠ 4 ∧
    5 ≤ ([0, 1, 2, 3, 4] : List U8).length ∧ ([0, 1, 2, 3] : List U8).length < 5 := by decide

theorem witness_FunctionCodeSelectsHandler :
    (∀ fc : U8, ∃ f : Frame, f.functionCode = fc) ∧
    ∀ fc ∈ [(0x00 : U8), 0x07, 0x0E, 0x11, 0x7F, 0x80, 0xFF], supported fc = false :=
  ⟨fun fc => ⟨⟨0, 0, 2, 0, fc, []⟩, rfl⟩, by decide⟩

/-- W5, and the empty range that starts at the capacity: inside and outside a bank of 0x10000 cells. -/
theorem witness_BankGetReturnsCells :
    let inside (addr count : Int) : Prop := 0 ≤ addr ∧ 0 ≤ count ∧ addr + count ≤ (State.reset.store.hr.cap : Int)
    inside 0xFFFE 2 ∧ inside 0x10000 0 ∧ ¬inside 0xFFFF 2 ∧ ¬inside (-1) 1 ∧ ¬inside 0 (-1) := by decide

theorem witness_BankSetWritesCells :
    State.reset.store.hr.wf = true ∧ (0 ≤ (0xFFFE : Int) ∧ 0xFFFE + (([1, 2] : List U16).length : Int) ≤ State.reset.store.hr.cap) ∧
    ¬(0 ≤ (0xFFFF : Int) ∧ 0xFFFF + (([1, 2] : List U16).length : Int) ≤ State.reset.store.hr.cap) := by decide

theorem witness_ReadsPureWritesIdempotent :
    (∃ t, exec (.readCoils ⟨1, 1⟩ (.fields 0 1)) State.reset = .next t) ∧
    (∃ t, exec (.readDiscreteInputs ⟨1, 1⟩ (.fields 0 1)) State.reset = .next t) ∧
    (∃ t, exec (.readHoldingRegisters ⟨1, 1⟩ (.fields 0 1)) State.reset = .next t) ∧
    (∃ t, exec (.readInputRegisters ⟨1, 1⟩ (.fields 0 1)) State.reset = .next t) ∧
    State.reset.store.hr.wf = true ∧ ∃ c, State.reset.store.hr.set 0xFFFF [(7 : U16)] = some c :=
  ⟨⟨_, rfl⟩, ⟨_, rfl⟩, ⟨_, rfl⟩, ⟨_, rfl⟩, by decide, ⟨_, rfl⟩⟩

theorem witness_CapacitiesNeverChange :
    Params.default.wf = true ∧ ({ Params.default with capHr := 0 } : Params).wf = true ∧
    (∃ t, step State.reset = .next t) ∧ small.store.hr.cap ≤ 16 ∧ ¬small.store.hr.cap ≤ 15 :=
  ⟨by decide, by decide, ⟨_, rfl⟩, by decide, by decide⟩

theorem witness_OnlyDeviceWritesInputs :
    (∃ t, exec readInstr State.reset = .next t) ∧
    (∃ t, step (scheduled State.reset (.devSetBits .di 3 [1])) = .next t) ∧
    (∃ c, State.reset.store.di.set 3 [(1 : Bit)] = some c) ∧ ∃ c, State.reset.store.ir.set 3 [(1 : U16)] = some c :=
  ⟨⟨_, rfl⟩, ⟨_, rfl⟩, ⟨_, rfl⟩, ⟨_, rfl⟩⟩

/-- The reset state has the active slot every statement about `exec` asks for, and canonical banks. -/
theorem witness_activeSlot : State.reset.active < State.reset.engines.length ∧ State.reset.store.co.wf = true ∧
    State.reset.store.hr.wf = true ∧ small.active < small.engines.length ∧ Memory.wf State.reset.store = true := by decide

/-- Counts 1 and 2000 that end exactly at the capacity. -/
theorem witness_ReadBitsAnswer : State.reset.active < State.reset.engines.length ∧
    ∀ p ∈ [((0xFFFF : U16), (1 : U16)), (0xF830, 2000)], 1 ≤ p.2.toNat ∧ p.2.toNat ≤ 2000 ∧
      p.1.toNat + p.2.toNat ≤ State.reset.store.co.cap ∧ p.1.toNat + p.2.toNat ≤ State.reset.store.di.cap := by
  simp [State.reset, State.initial, Params.default, Bank.built, maxCapacity]

/-- Counts 1 and 125 that end exactly at the capacity. -/
theorem witness_ReadWordsAnswer : State.reset.active < State.reset.engines.length ∧
    ∀ p ∈ [((0xFFFF : U16), (1 : U16)), (0xFF83, 125)], 1 ≤ p.2.toNat ∧ p.2.toNat ≤ 125 ∧
      p.1.toNat + p.2.toNat ≤ State.reset.store.hr.cap ∧ p.1.toNat + p.2.toNat ≤ State.reset.store.ir.cap := by
  simp [State.reset, State.initial, Params.default, Bank.built, maxCapacity]

/-- Counts 0, 2001 and 126; counts 1, 2000 and 125 that end one cell past the capacity. -/
theorem witness_ReadsRefuse : State.reset.active < State.reset.engines.length ∧ small.active < small.engines.length ∧
    (0 : U16).toNat = 0 ∧ 2000 < (2001 : U16).toNat ∧ 125 < (126 : U16).toNat ∧
    (∀ p ∈ [((0x0010 : U16), (1 : U16)), (0x000F, 2), (0x0000, 2000)], 1 ≤ p.2.toNat ∧ p.2.toNat ≤ 2000 ∧
      small.store.co.cap < p.1.toNat + p.2.toNat ∧ small.store.di.cap < p.1.toNat + p.2.toNat) ∧
    ∀ p ∈ [((0x0010 : U16), (1 : U16)), (0x000F, 2), (0x0000, 125)], 1 ≤ p.2.toNat ∧ p.2.toNat ≤ 125 ∧
      small.store.hr.cap < p.1.toNat + p.2.toNat ∧ small.store.ir.cap < p.1.toNat + p.2.toNat := by
  simp [small, State.reset, State.initial, Params.default, Bank.built]

theorem witness_WriteSingleCoilAnswers : State.reset.active < State.reset.engines.length ∧ State.reset.store.co.wf = true ∧
    ∀ a ∈ [(0x0000 : U16), 0xFFFF], a.toNat < State.reset.store.co.cap := by
  refine ⟨by decide, by decide, ?_⟩
  simp [State.reset, State.initial, Params.default, Bank.built, maxCapacity]

theorem witness_WriteSingleRegisterAnswers : State.reset.active < State.reset.engines.length ∧
    State.reset.store.hr.wf = true ∧ ∀ a ∈ [(0x0000 : U16), 0xFFFF], a.toNat < State.reset.store.hr.cap := by
  refine ⟨by decide, by decide, ?_⟩
  simp [State.reset, State.initial, Params.default, Bank.built, maxCapacity]

/-- The values next to the two legal ones; the first address past a bank of 16 cells. -/
theorem witness_SingleWritesRefuse : small.active < small.engines.length ∧
    (∀ v ∈ [(0x0001 : U16), 0xFEFF, 0xFF01, 0x00FF, 0xFFFF], v ≠ 0xFF00 ∧ v ≠ 0x0000) ∧
    small.store.co.cap ≤ (0x0010 : U16).toNat ∧ small.store.hr.cap ≤ (0x0010 : U16).toNat := by
  simp [small, State.initial, Bank.built]

/-- The hypotheses of WriteMultipleCoilsAnswers and of WrittenCoilsReadBack at counts 1, 8, 9 and 1968, each ending at the capacity. -/
theorem witness_WriteMultipleCoilsAnswers : State.reset.active < State.reset.engines.length ∧ State.reset.store.co.wf = true ∧
    ∀ p ∈ [((0xFFFF : U16), (1 : U16), (1 : U8)), (0xFFF8, 8, 1), (0xFFF7, 9, 2), (0xF850, 1968, 246)],
      1 ≤ p.2.1.toNat ∧ p.2.1.toNat ≤ 1968 ∧ p.2.2.toNat = (p.2.1.toNat + 7) / 8 ∧
      (∃ payload : List U8, payload.length = p.2.2.toNat) ∧ p.1.toNat + p.2.1.toNat ≤ State.reset.store.co.cap := by
  refine ⟨by decide, by decide, fun p hp => ?_⟩
  simp only [List.mem_cons, List.not_mem_nil, or_false] at hp
  rcases hp with rfl | rfl | rfl | rfl <;>
    exact ⟨by decide, by decide, by decide, ⟨List.replicate _ 0xAA, List.length_replicate⟩, by decide⟩

theorem witness_WrittenCoilsReadBack : State.reset.active < State.reset.engines.length ∧ State.reset.store.co.wf = true ∧
    1 ≤ (10 : U16).toNat ∧ (10 : U16).toNat ≤ 1968 ∧ (2 : U8).toNat = ((10 : U16).toNat + 7) / 8 ∧
    ([0xCD, 0x01] : List U8).length = (2 : U8).toNat ∧ (0x13 : U16).toNat + (10 : U16).toNat ≤ State.reset.store.co.cap := by decide

/-- The hypotheses of WriteMultipleRegistersAnswers and of WrittenRegistersReadBack at counts 1 and 123, each ending at the capacity. -/
theorem witness_WriteMultipleRegistersAnswers : State.reset.active < State.reset.engines.length ∧
    State.reset.store.hr.wf = true ∧
    ∀ p ∈ [((0xFFFF : U16), (1 : U16), (2 : U8)), (0xFF85, 123, 246)],
      1 ≤ p.2.1.toNat ∧ p.2.1.toNat ≤ 123 ∧ p.2.2.toNat = 2 * p.2.1.toNat ∧
      (∃ payload : List U8, payload.length = p.2.2.toNat) ∧ p.1.toNat + p.2.1.toNat ≤ State.reset.store.hr.cap := by
  refine ⟨by decide, by decide, fun p hp => ?_⟩
  simp only [List.mem_cons, List.not_mem_nil, or_false] at hp
  rcases hp with rfl | rfl <;>
    exact ⟨by decide, by decide, by decide, ⟨List.replicate _ 0x11, List.length_replicate⟩, by decide⟩

theorem witness_WrittenRegistersReadBack : State.reset.active < State.reset.engines.length ∧ State.reset.store.hr.wf = true ∧
    1 ≤ (2 : U16).toNat ∧ (2 : U16).toNat ≤ 123 ∧ (4 : U8).toNat = 2 * (2 : U16).toNat ∧
    ([0x00, 0x01, 0x00, 0x02] : List U8).length = (4 : U8).toNat ∧
    (0xFFFE : U16).toNat + (2 : U16).toNat ≤ State.reset.store.hr.cap := by decide

/-- Counts 0, 1969 and 124, byte counts and payloads that do not fit, and legal operands that end past a bank of 16 cells. -/
theorem witness_MultipleWritesRefuse : small.active < small.engines.length ∧ 1968 < (1969 : U16).toNat ∧
    123 < (124 : U16).toNat ∧ (2 : U8).toNat ≠ ((8 : U16).toNat + 7) / 8 ∧ (2 : U8).toNat ≠ 2 * (2 : U16).toNat ∧
    ([0x01, 0x00] : List U8).length ≠ (1 : U8).toNat ∧
    (1 ≤ (2 : U16).toNat ∧ (2 : U16).toNat ≤ 1968 ∧ (1 : U8).toNat = ((2 : U16).toNat + 7) / 8 ∧
      ([0x03] : List U8).length = (1 : U8).toNat ∧ small.store.co.cap < (0x000F : U16).toNat + (2 : U16).toNat) ∧
    (1 ≤ (2 : U16).toNat ∧ (2 : U16).toNat ≤ 123 ∧ (4 : U8).toNat = 2 * (2 : U16).toNat ∧
      ([0, 3, 0, 4] : List U8).length = (4 : U8).toNat ∧
      small.store.hr.cap < (0x000F : U16).toNat + (2 : U16).toNat) := by decide

/-- IllegalFunctionAnswers and EveryRequestAnsweredOnce ask for an active slot only. -/
theorem witness_IllegalFunctionAnswers : State.reset.active < State.reset.engines.length := by decide

theorem witness_EveryRequestAnsweredOnce : small.active < small.engines.length := by decide

/-- A request that succeeds and one that does not. -/
theorem witness_ResponseIsExceptionOrSuccess :
    (readInstr.wellFormed = true ∧ ∃ t, exec readInstr State.reset = .next t) ∧
    (Instr.illegalFunction ⟨1, 1⟩ 0x99 []).wellFormed = true ∧
    ∃ t, exec (.illegalFunction ⟨1, 1⟩ 0x99 []) State.reset = .next t :=
  ⟨⟨by decide, ⟨_, rfl⟩⟩, by decide, ⟨_, rfl⟩⟩

theorem witness_ResponseIsValidFrame : readInstr.wellFormed = true ∧
    ∃ t e e', exec readInstr State.reset = .next t ∧ State.reset.engines[State.reset.active]? = some e ∧
      t.engines[State.reset.active]? = some e' :=
  ⟨by decide, _, _, _, rfl, rfl, rfl⟩

theorem witness_TagSelectsNothing : readInstr.wellFormed = true ∧ State.reset.active < State.reset.engines.length := by decide

/-- Two states that agree on the store alone. -/
theorem witness_ResponseDependsOnStoreOnly :
    ∃ s t : State, s.store = t.store ∧ s.active < s.engines.length ∧ t.active < t.engines.length ∧ s ≠ t :=
  ⟨State.reset, { faulted State.reset with active := 1 }, by decide, by decide, by decide, by decide⟩

theorem witness_StepRunsDecodedInstruction :
    ∃ (s : State) (e : Engine), s.agenda = [.engine 0] ∧ s.engines[0]? = some e ∧ e.phase = .drain ∧
      decode e.rbuf = .request readInstr [0xAA] :=
  ⟨scheduled (draining State.reset (readFrame ++ [0xAA])) (.engine 0), _, rfl, rfl, by decide, by decide⟩

/-- No engine drains; slot 1 alone drains. -/
theorem witness_EmptyAgendaStep :
    (State.reset.agenda = [] ∧ ∀ e ∈ State.reset.engines, e.phase = .idle) ∧
    ∃ s : State, s.agenda = [] ∧ (∃ e, s.engines[1]? = some e ∧ e.phase = .drain) ∧
      ∀ (j : Nat) (e : Engine), j < 1 → s.engines[j]? = some e → e.phase = .idle := by
  refine ⟨by decide, State.reset.modifyEngine 1 fun e => { e with phase := .drain }, rfl, ⟨_, rfl, rfl⟩, ?_⟩
  intro j e hj he
  have h0 : j = 0 := by omega
  subst h0
  cases he
  rfl

theorem witness_InvalidFrameFaultsConnection :
    ∃ (s : State) (e : Engine) (f : Frame), s.agenda = [.engine 0] ∧ s.engines[0]? = some e ∧ e.phase = .drain ∧
      decode e.rbuf = .invalidFrame f :=
  ⟨scheduled (draining State.reset [0, 2, 0, 1, 0, 2, 1, 6]) (.engine 0), _, ⟨2, 1, 2, 1, 6, []⟩, rfl, rfl, by decide, by decide⟩

theorem witness_EngineWaitsWithoutFrame :
    (∃ (s : State) (e : Engine), s.agenda = [.engine 0] ∧ s.engines[0]? = some e ∧ e.phase = .idle) ∧
    ∃ (s : State) (e : Engine), s.agenda = [.engine 0] ∧ s.engines[0]? = some e ∧ e.phase = .drain ∧ decode e.rbuf = .incomplete :=
  ⟨⟨scheduled State.reset (.engine 0), _, rfl, rfl, by decide⟩,
    ⟨scheduled (draining State.reset (readFrame.take 11)) (.engine 0), _, rfl, rfl, by decide, by decide⟩⟩

/-- A faulted engine; a chunk that fills a buffer of 20 bytes exactly; a chunk one byte longer. -/
theorem witness_ProcessTakesChunk :
    (∃ (s : State) (e : Engine), s.agenda = [.process 0 [1]] ∧ s.engines[0]? = some e ∧ e.phase = .idle ∧ e.fault = true) ∧
    (∃ (s : State) (e : Engine), s.agenda = [.process 0 (List.replicate 12 0)] ∧ s.engines[0]? = some e ∧ e.phase = .idle ∧
      e.fault = false ∧ s.rbufCap = some (e.rbuf.length + (List.replicate 12 (0 : U8)).length)) ∧
    ∃ (s : State) (e : Engine), s.agenda = [.process 0 (List.replicate 13 0)] ∧ s.engines[0]? = some e ∧ e.phase = .idle ∧
      e.fault = false ∧ ∃ cap, s.rbufCap = some cap ∧ cap < e.rbuf.length + (List.replicate 13 (0 : U8)).length :=
  ⟨⟨scheduled (faulted State.reset) (.process 0 [1]), _, rfl, rfl, by decide, by decide⟩,
    ⟨scheduled (waiting small (List.replicate 8 0)) (.process 0 (List.replicate 12 0)), _, rfl, rfl, by decide, by decide, by decide⟩,
    ⟨scheduled (waiting small (List.replicate 8 0)) (.process 0 (List.replicate 13 0)), _, rfl, rfl, by decide, by decide, 20,
      by decide, by decide⟩⟩

theorem witness_OpenAndCloseResetSlot :
    (∃ (s : State) (e : Engine), s.engines[1]? = some e ∧ s.agenda = [.connClose 1]) ∧
    (∃ (s : State) (e : Engine), s.engines[1]? = some e ∧ s.agenda = [.connOpen 1] ∧
      e.rbuf = [] ∧ e.phase = .idle ∧ e.fault = false) ∧
    (∃ (s : State) (e : Engine), s.engines[0]? = some e ∧ s.agenda = [.connOpen 0] ∧ e.rbuf ≠ []) ∧
    (∃ (s : State) (e : Engine), s.engines[0]? = some e ∧ s.agenda = [.connOpen 0] ∧ e.phase = .drain) ∧
    ∃ (s : State) (e : Engine), s.engines[0]? = some e ∧ s.agenda = [.connOpen 0] ∧ e.fault = true :=
  ⟨⟨scheduled State.reset (.connClose 1), _, rfl, rfl⟩,
    ⟨scheduled State.reset (.connOpen 1), _, rfl, rfl, by decide, by decide, by decide⟩,
    ⟨scheduled (waiting State.reset [0]) (.connOpen 0), _, rfl, rfl, by decide⟩,
    ⟨scheduled (draining State.reset []) (.connOpen 0), _, rfl, rfl, by decide⟩,
    ⟨scheduled (faulted State.reset) (.connOpen 0), _, rfl, rfl, by decide⟩⟩

theorem witness_HostReadsFaultBit :
    ∃ (s : State) (e : Engine), s.agenda = [.readFault 0] ∧ s.engines[0]? = some e ∧ e.fault = true :=
  ⟨scheduled (faulted State.reset) (.readFault 0), _, rfl, rfl, by decide⟩

/-- Ranges that end at the capacity and one cell past it, and a negative address. -/
theorem witness_DeviceGetReturnsCells :
    (∀ b : BankName, ∃ s : State, s.agenda = [.devGet b 14 2] ∧ s.store = small.store) ∧
    (0 ≤ (14 : Int) ∧ 0 ≤ (2 : Int) ∧ (14 : Int) + 2 ≤ small.store.di.cap) ∧
    ¬(0 ≤ (15 : Int) ∧ 0 ≤ (2 : Int) ∧ (15 : Int) + 2 ≤ small.store.di.cap) ∧
    ¬(0 ≤ (-1 : Int) ∧ 0 ≤ (1 : Int) ∧ (-1 : Int) + 1 ≤ small.store.di.cap) :=
  ⟨fun b => ⟨scheduled small (.devGet b 14 2), rfl, rfl⟩, by decide, by decide, by decide⟩

theorem witness_DeviceSetWritesBits : Memory.wf small.store = true ∧
    (∀ b : BitBank, ∃ s : State, s.agenda = [.devSetBits b 14 [1, 1]] ∧ s.store = small.store) ∧
    (0 ≤ (14 : Int) ∧ 14 + (([1, 1] : List Bit).length : Int) ≤ small.store.co.cap) ∧
    ¬(0 ≤ (15 : Int) ∧ 15 + (([1, 1] : List Bit).length : Int) ≤ small.store.co.cap) :=
  ⟨by decide, fun b => ⟨scheduled small (.devSetBits b 14 [1, 1]), rfl, rfl⟩, by decide, by decide⟩

theorem witness_DeviceSetWritesWords : Memory.wf small.store = true ∧
    (∀ b : WordBank, ∃ s : State, s.agenda = [.devSetWords b 14 [1, 2]] ∧ s.store = small.store) ∧
    (0 ≤ (14 : Int) ∧ 14 + (([1, 2] : List U16).length : Int) ≤ small.store.hr.cap) ∧
    ¬(0 ≤ (15 : Int) ∧ 15 + (([1, 2] : List U16).length : Int) ≤ small.store.hr.cap) :=
  ⟨by decide, fun b => ⟨scheduled small (.devSetWords b 14 [1, 2]), rfl, rfl⟩, by decide, by decide⟩

/-- A legal state in which a request runs. -/
theorem witness_StepKeepsLegalState :
    ∃ s t : State, s.wf = true ∧ step s = .next t ∧ s ≠ t :=
  ⟨draining State.reset readFrame, _, by decide, rfl, by decide⟩

theorem witness_InitialStateIsLegal : Params.default.wf = true ∧
    (⟨1, 0, 0, 0, 0, some 0⟩ : Params).wf = true := by decide

theorem witness_InitialStateValues : 1 < Params.default.nConn := by decide

theorem witness_EnginesAreIsolated :
    (∀ ev ∈ [Event.engine 0, .connOpen 0, .connClose 0, .readFault 0, .process 0 [1]],
      ((next? (step (scheduled State.reset ev))).isSome = true)) ∧ (1 : Nat) ≠ 0 ∧
    ∀ ev ∈ [Event.devGet .hr 0 1, .devSetBits .di 0 [1], .devSetWords .ir 0 [1]],
      (next? (step (scheduled State.reset ev))).isSome = true := by decide

/-- A step of slot 0 that removes a frame from its buffer and logs a response. -/
theorem witness_BufferChangesOnlyAsListed :
    ∃ (s t : State) (e e' : Engine), step s = .next t ∧ s.engines[0]? = some e ∧ t.engines[0]? = some e' ∧ e'.rbuf ≠ e.rbuf :=
  ⟨draining State.reset readFrame, _, _, _, rfl, rfl, rfl, by decide⟩

theorem witness_OutputLogOnlyGrows :
    ∃ (s t : State) (e e' : Engine), step s = .next t ∧ s.engines[0]? = some e ∧ t.engines[0]? = some e' ∧ e'.out ≠ e.out :=
  ⟨draining State.reset readFrame, _, _, _, rfl, rfl, rfl, by decide⟩

theorem witness_FaultLastsUntilClose :
    ∃ (s t : State) (e : Engine), s.engines[0]? = some e ∧ e.fault = true ∧ e.phase = .idle ∧ step s = .next t ∧
      s.agenda = [.process 0 [1]] ∧ ∀ rest, s.agenda ≠ .connClose 0 :: rest := by
  refine ⟨scheduled (faulted State.reset) (.process 0 [1]), _, _, rfl, rfl, rfl, rfl, rfl, fun rest h => ?_⟩
  cases h

theorem witness_StopsOnlyOnMisuse :
    (∃ r, step (scheduled State.reset (.engine 2)) = .fault r) ∧
    (∃ r, step (scheduled (draining State.reset []) (.process 0 [])) = .fault r) ∧
    ∃ r, step (scheduled (faulted State.reset) (.connOpen 0)) = .fault r :=
  ⟨⟨_, rfl⟩, ⟨_, rfl⟩, ⟨_, rfl⟩⟩

/-- ProcessCallReturns and ChunkSplitInvisible: an idle engine with bytes in its buffer, which is unbounded. -/
theorem witness_ProcessCallReturns :
    ∃ (s : State) (e : Engine), s.engines[0]? = some e ∧ e.phase = .idle ∧ e.rbuf ≠ [] :=
  ⟨waiting State.reset [0, 1], _, rfl, by decide, by decide⟩

theorem witness_ChunkSplitInvisible :
    ∃ (s : State) (e : Engine), s.rbufCap = none ∧ s.engines[0]? = some e ∧ e.phase = .idle ∧ e.rbuf ≠ [] :=
  ⟨waiting State.reset [0, 1], _, rfl, rfl, by decide, by decide⟩

theorem witness_PipelinedRequestsAnsweredInOrder :
    ∃ (s : State) (reqs : List Instr) (e : Engine), s.rbufCap = none ∧ s.engines[1]? = some e ∧ e.phase = .idle ∧
      e.fault = false ∧ e.rbuf = [] ∧ (∀ i ∈ reqs, i.wellFormed = true) ∧ reqs.length = 2 :=
  ⟨State.reset, [readInstr, .illegalFunction ⟨2, 1⟩ 0x99 []], _, rfl, rfl, by decide, by decide, by decide, by decide, by decide⟩

/-- P6: slot 0 writes two registers, slot 1 reads them. -/
theorem witness_NoTornRegisterRead :
    ∃ (s : State) (ej ek : Engine) (t u : Tag) (ops : MultiOps) (rj rk : List U8), (0 : Nat) ≠ 1 ∧
      s.engines[0]? = some ej ∧ s.engines[1]? = some ek ∧ ej.phase = .drain ∧ ek.phase = .drain ∧
      decode ej.rbuf = .request (.writeMultipleRegisters t ops) rj ∧
      decode ek.rbuf = .request (.readHoldingRegisters u (.fields 0 2)) rk ∧
      1 ≤ (2 : U16).toNat ∧ (2 : U16).toNat ≤ 125 ∧ (0 : U16).toNat + (2 : U16).toNat ≤ s.store.hr.cap :=
  ⟨{ State.reset with engines :=
      [⟨[0, 1, 0, 0, 0, 0x0B, 1, 0x10, 0, 0, 0, 2, 4, 0, 1, 0, 1], .drain, false, []⟩, ⟨readFrame, .drain, false, []⟩] },
    _, _, ⟨1, 1⟩, ⟨1, 1⟩, .fields 0 2 4 [0, 1, 0, 1], [], [], by decide, rfl, rfl, by decide, by decide, by decide, by decide,
    by decide, by decide, by decide⟩

end Sys2Proof.Tests
end

section
/-! PROOFS. The state family of 10_state.md: the banks' capacities (R10), the two read-only banks (R11), and the reassembly buffers (R14). -/

namespace Sys2Proof.Machine

/-! ### Capacities -/

/-- The four banks have the same capacities in both stores. -/
def DataStore.SameCaps (d d' : DataStore) : Prop :=
  d'.di.cap = d.di.cap ∧ d'.co.cap = d.co.cap ∧ d'.ir.cap = d.ir.cap ∧ d'.hr.cap = d.hr.cap

theorem DataStore.SameCaps.of_eq {d d' : DataStore} (h : d' = d) : d.SameCaps d' := by
  subst h; exact ⟨rfl, rfl, rfl, rfl⟩

theorem StoreStep.sameCaps {d d' : DataStore} (h : StoreStep d d') : d.SameCaps d' :=
  ⟨congrArg Bank.cap h.di, h.co_cap, congrArg Bank.cap h.ir, h.hr_cap⟩

theorem StepEffect.sameCaps {s t : State} (h : StepEffect s t) : s.store.SameCaps t.store := by
  cases h with
  | idle h => exact .of_eq h
  | eng _ _ _ _ h => exact h.sameCaps
  | host _ _ _ _ h => exact .of_eq h
  | devB b a vs rest _ _ h =>
    rcases h with ⟨_, c, hset, hst⟩ | ⟨_, c, hset, hst⟩ <;> rw [hst]
    · exact ⟨Bank.set_cap hset, rfl, rfl, rfl⟩
    · exact ⟨rfl, Bank.set_cap hset, rfl, rfl⟩
  | devW b a vs rest _ _ h =>
    rcases h with ⟨_, c, hset, hst⟩ | ⟨_, c, hset, hst⟩ <;> rw [hst]
    · exact ⟨rfl, rfl, Bank.set_cap hset, rfl⟩
    · exact ⟨rfl, rfl, rfl, Bank.set_cap hset⟩

theorem Bank.get_one_eq_none_iff {w : Nat} (b : Bank w) (a : Nat) : b.get a 1 = none ↔ b.cap ≤ a := by
  have h := b.get_nat a 1
  rw [Nat.cast_one] at h
  rw [h, ite_eq_right_iff]
  simp only [reduceCtorEq, imp_false]
  omega

/-- Settles O15: the capacities as built, kept by every effect of a step, and a cell exists exactly below the capacity. -/
theorem capacitiesNeverChange : Obligations.CapacitiesNeverChange := by
  refine ⟨fun p hp => ?_, fun s t h => (step_effect h).sameCaps, fun w b a => b.get_one_eq_none_iff a⟩
  simp only [Params.wf, Bool.and_eq_true, decide_eq_true_eq] at hp
  obtain ⟨⟨⟨⟨_, hdi⟩, hco⟩, hir⟩, hhr⟩ := hp
  exact ⟨rfl, rfl, rfl, rfl, hdi, hco, hir, hhr⟩

/-! ### The read-only banks -/

/-- An instruction that ends in a next state makes one `StoreStep` of the store. -/
theorem exec_storeStep {i : Instr} {s t : State} (h : exec i s = .next t) : StoreStep s.store t.store := by
  by_cases ha : s.active < s.engines.length
  · obtain ⟨d, f, hd, he⟩ := exec_next (i := i) ha
    rw [he] at h
    cases h
    exact hd
  · rw [exec_noSuchSlot ha] at h
    cases h

theorem StepEffect.di {s t : State} (h : StepEffect s t) :
    t.store.di = s.store.di ∨ ∃ addr vs rest, s.agenda = .devSetBits .di addr vs :: rest := by
  cases h with
  | idle h => exact .inl (by rw [h])
  | eng _ _ _ _ h => exact .inl h.di
  | host _ _ _ _ h => exact .inl (by rw [h])
  | devB b a vs rest hag _ h =>
    rcases h with ⟨rfl, _⟩ | ⟨_, c, _, hst⟩
    · exact .inr ⟨a, vs, rest, hag⟩
    · exact .inl (by rw [hst])
  | devW b a vs rest _ _ h =>
    rcases h with ⟨_, c, _, hst⟩ | ⟨_, c, _, hst⟩ <;> exact .inl (by rw [hst])

theorem StepEffect.ir {s t : State} (h : StepEffect s t) :
    t.store.ir = s.store.ir ∨ ∃ addr vs rest, s.agenda = .devSetWords .ir addr vs :: rest := by
  cases h with
  | idle h => exact .inl (by rw [h])
  | eng _ _ _ _ h => exact .inl h.ir
  | host _ _ _ _ h => exact .inl (by rw [h])
  | devB b a vs rest _ _ h =>
    rcases h with ⟨_, c, _, hst⟩ | ⟨_, c, _, hst⟩ <;> exact .inl (by rw [hst])
  | devW b a vs rest hag _ h =>
    rcases h with ⟨rfl, _⟩ | ⟨_, c, _, hst⟩
    · exact .inr ⟨a, vs, rest, hag⟩
    · exact .inl (by rw [hst])

/-- With an event on the agenda, a step is that event's. -/
theorem step_cons {s : State} {ev : Event} {rest : List Event} (h : s.agenda = ev :: rest) :
    step s = perform ev { s with agenda := rest } := by
  simp only [step, nextStep, h]

theorem deviceSetBits_di {s : State} {addr : Int} {vs : List Bit} {c : Bank 1} (h : s.store.di.set addr vs = some c) :
    deviceSetBits .di addr vs s = .next ((s.withDi c).answerDevice .written) := by
  simp only [deviceSetBits, h, Option.map_some]

theorem deviceSetWords_ir {s : State} {addr : Int} {vs : List U16} {c : Bank 16} (h : s.store.ir.set addr vs = some c) :
    deviceSetWords .ir addr vs s = .next ((s.withIr c).answerDevice .written) := by
  simp only [deviceSetWords, h, Option.map_some]

/-- Settles O16: a request's one `set` is on the coils or the holding registers, and of the other events only the device's set on
the bank itself reaches it. -/
theorem onlyDeviceWritesInputs : Obligations.OnlyDeviceWritesInputs := by
  refine ⟨fun i s t h => ⟨(exec_storeStep h).di, (exec_storeStep h).ir⟩,
    fun s t h => ⟨(step_effect h).di, (step_effect h).ir⟩, ?_, ?_⟩
  · intro s addr vs rest c hag hset
    exact ⟨_, (step_cons hag).trans (deviceSetBits_di (s := { s with agenda := rest }) hset), rfl⟩
  · intro s addr vs rest c hag hset
    exact ⟨_, (step_cons hag).trans (deviceSetWords_ir (s := { s with agenda := rest }) hset), rfl⟩

/-! ### The reassembly buffers -/

/-- Slot `k` after slot `j` was set: it is slot `j`, or it is as it was. -/
theorem getElem?_set_cases {es : List Engine} {j k : Nat} {x y e e' : Engine} (hj : es[j]? = some x)
    (hk : es[k]? = some e) (hk' : (es.set j y)[k]? = some e') : (j = k ∧ x = e ∧ e' = y) ∨ e' = e := by
  by_cases hjk : j = k
  · subst hjk
    rw [List.getElem?_set_self (List.getElem?_eq_some_iff.1 hj).1] at hk'
    exact .inl ⟨rfl, Option.some.inj (hj.symm.trans hk), (Option.some.inj hk').symm⟩
  · rw [List.getElem?_set_ne hjk] at hk'
    exact .inr (Option.some.inj (hk'.symm.trans hk))

/-- Settles O48: the steps that change an engine are its turn, a close and a chunk, each in one of R14's ways; any other step
keeps the engine. -/
theorem bufferChangesOnlyAsListed : Obligations.BufferChangesOnlyAsListed := by
  intro s t k e e' h he he'
  have kept (hen : t.engines = s.engines) : e'.rbuf = e.rbuf := by
    rw [hen, he] at he'
    rw [Option.some.inj he']
  cases step_effect h with
  | idle _ hen => exact .inl (kept hen)
  | devB _ _ _ _ _ hen => exact .inl (kept hen)
  | devW _ _ _ _ _ hen => exact .inl (kept hen)
  | eng j x y hx _ hen hw =>
    rw [hen] at he'
    rcases getElem?_set_cases hx he he' with ⟨rfl, rfl, rfl⟩ | rfl
    · rcases hw with ⟨_, _, rfl, _⟩ | ⟨_, rfl, _⟩ | ⟨_, i, r, bytes, hdec, rfl⟩
      · exact .inl rfl
      · exact .inr (.inr (.inr ⟨rfl, .inl rfl⟩))
      · obtain ⟨f, hf, _⟩ := decode_eq_request hdec
        exact .inr (.inr (.inl ⟨f, hf⟩))
    · exact .inl rfl
  | host j x y hx _ hen hw =>
    rw [hen] at he'
    rcases getElem?_set_cases hx he he' with ⟨rfl, rfl, rfl⟩ | rfl
    · rcases hw with ⟨rest, hag, rfl⟩ | ⟨c, rest, _, _, _, _, rfl⟩ | ⟨c, rest, hag, _, _, _, rfl⟩
      · exact .inr (.inr (.inr ⟨rfl, .inr ⟨rest, hag⟩⟩))
      · exact .inr (.inr (.inr ⟨rfl, .inl rfl⟩))
      · exact .inr (.inl ⟨c, rest, hag, rfl⟩)
    · exact .inl rfl

end Sys2Proof.Machine
end

section
/-! PROOFS. The memory family of 20_memory.md: what `get` and `set` of a bank do at any integers (R26, R27). -/

namespace Sys2Proof.Machine

/-! ### The primitives at any integers -/

/-- `get` by R26's range condition. -/
theorem Bank.get_eq_ite {w : Nat} (b : Bank w) (addr count : Int) : b.get addr count =
    if 0 ≤ addr ∧ 0 ≤ count ∧ addr + count ≤ b.cap then some (b.readCells addr.toNat count.toNat) else none := by
  simp only [Bank.get, inRange_iff]

/-- `set` by R27's range condition: the length of a list is never negative. -/
theorem Bank.set_eq_ite {w : Nat} (b : Bank w) (addr : Int) (vs : List (BitVec w)) : b.set addr vs =
    if 0 ≤ addr ∧ addr + vs.length ≤ b.cap then some (b.writeCells addr.toNat vs) else none := by
  simp only [Bank.set, inRange_iff, Int.natCast_nonneg, true_and]

/-- Writing a list of values within the capacity is R27's write of a range. -/
theorem Bank.writeCells_writtenRange {w : Nat} {b : Bank w} (h : b.wf = true) {addr : Nat} {vs : List (BitVec w)}
    (hr : addr + vs.length ≤ b.cap) : WrittenRange b (b.writeCells addr vs) addr vs.length fun i => vs.getD i 0#w :=
  ⟨b.writeCells_cap addr vs, Bank.writeCells_wf h hr, Bank.writeCells_cell h hr⟩

/-! ### The obligations -/

/-- Settles O11: `get` answers `readCells` exactly in range, which has `count` entries, entry `i` being cell `addr + i`. -/
theorem bankGetReturnsCells : Obligations.BankGetReturnsCells := by
  intro w b addr count
  refine ⟨fun h => by rw [Bank.get_eq_ite, if_neg h], fun h => ?_⟩
  have ⟨_, hcount, _⟩ := h
  refine ⟨b.readCells addr.toNat count.toNat, by rw [Bank.get_eq_ite, if_pos h], ?_, fun i hi => ?_⟩
  · rw [Bank.readCells_length, Int.toNat_of_nonneg hcount]
  · rw [Bank.readCells_length] at hi
    exact Bank.readCells_getElem? b hi

/-- Settles O12: `set` answers `writeCells` exactly in range, which is the write of that range. -/
theorem bankSetWritesCells : Obligations.BankSetWritesCells := by
  intro w b addr vs hb
  refine ⟨fun h => by rw [Bank.set_eq_ite, if_neg h], fun h => ?_⟩
  have hr : addr.toNat + vs.length ≤ b.cap := by omega
  exact ⟨b.writeCells addr.toNat vs, by rw [Bank.set_eq_ite, if_pos h], Bank.writeCells_writtenRange hb hr⟩

end Sys2Proof.Machine
end

section
/-! PROOFS. The encoding family of 30_encoding.md: the function-code map (R53, R54). -/

namespace Sys2Proof.Machine

/-- A code outside R53's eight rows takes none of `select`'s eight arms. -/
theorem select_of_unsupported {f : Frame} (h : supported f.functionCode = false) :
    select f = .illegalFunction f.tag f.functionCode f.data := by
  unfold select
  split
  case h_9 => rfl
  all_goals
    rename_i hfc
    rw [hfc] at h
    exact absurd h (by decide)

/-- Settles O9: a supported code reduces `select` to its own arm, whatever the other fields are; any other code is
`select_of_unsupported`. -/
theorem functionCodeSelectsHandler : Obligations.FunctionCodeSelectsHandler := by
  rintro ⟨tid, pid, len, uid, fc, data⟩
  refine ⟨?_, ?_, ?_, ?_, ?_, ?_, ?_, ?_, select_of_unsupported⟩
  all_goals
    rintro rfl
    rfl

end Sys2Proof.Machine
end

section
/-! PROOFS. The frame-codec family of 40_frame_codec.md: what `decode` answers with and without a whole frame in the buffer
(R60, R61). -/

namespace Sys2Proof.Machine

/-! ### The frame decoder by the offsets of its buffer -/

/-- The decoder on a buffer that holds a header, with the fields read at their offsets (40_frame_codec.md §1). The header and
the data take `8 + (L - 2)` bytes, which is 8 where L is 0 or 1. -/
theorem decodeFrame_of_header {buf : List U8} {n : Nat} (h8 : 8 ≤ buf.length)
    (hn : n = 8 + ((be16 (buf.getD 4 0) (buf.getD 5 0)).toNat - 2)) :
    decodeFrame buf =
      if buf.length < n then none
      else some
        ({ transactionId := be16 (buf.getD 0 0) (buf.getD 1 0), protocolId := be16 (buf.getD 2 0) (buf.getD 3 0),
           length := be16 (buf.getD 4 0) (buf.getD 5 0), unitId := buf.getD 6 0, functionCode := buf.getD 7 0,
           data := (buf.drop 8).take (n - 8) }, buf.drop n) := by
  obtain ⟨t1, t0, p1, p0, l1, l0, u, f, rest, rfl⟩ := exists_header h8
  change n = 8 + ((be16 l1 l0).toNat - 2) at hn
  rw [decodeFrame_cons]
  generalize (be16 l1 l0).toNat - 2 = d at hn ⊢
  obtain rfl : n = d + 8 := by omega
  simp only [List.length_cons, Nat.add_lt_add_iff_right, Nat.add_sub_cancel]
  rfl

/-- No frame is buffered exactly where the header is not whole or the data behind it is not. -/
theorem decodeFrame_eq_none_iff (buf : List U8) : decodeFrame buf = none ↔
    buf.length < 8 ∨ buf.length < 8 + ((be16 (buf.getD 4 0) (buf.getD 5 0)).toNat - 2) := by
  by_cases h8 : buf.length < 8
  · simp only [decodeFrame_short h8, h8, true_or]
  · simp only [decodeFrame_of_header (Nat.le_of_not_lt h8) rfl, ite_eq_left_iff, reduceCtorEq, imp_false, not_not, h8,
      false_or]

/-! ### The engine's turn without a whole frame -/

/-- The turn of a draining engine is its drain step. -/
theorem engineTurn_of_drain {s : State} {k : Nat} {e : Engine} (he : s.engines[k]? = some e) (hp : e.phase = .drain) :
    engineTurn k s = drainStep k e s := by
  simp only [engineTurn, he, hp]

/-- A drain step that finds no whole frame changes only the engine's phase (R60, R71). -/
theorem drainStep_of_incomplete {s : State} {k : Nat} {e : Engine} (he : s.engines[k]? = some e)
    (hd : decode e.rbuf = .incomplete) :
    drainStep k e s = .next { s with engines := s.engines.set k { e with phase := .idle } } := by
  simp only [drainStep, hd, State.modifyEngine, modify_eq_set _ _ _ _ he]

/-! ### The obligations -/

/-- Settles O4: a length field of 0 or 1 asks for no byte behind the header, so only L of at least 2 can wait for data; the turn
is then the drain step that finds no whole frame. -/
theorem incompleteFrameConsumesNothing : Obligations.IncompleteFrameConsumesNothing := by
  refine ⟨fun buf => ?_, fun s k e he hp hd => ?_⟩
  · rw [decodeFrame_eq_none_iff]
    omega
  · rw [engineTurn_of_drain he hp, drainStep_of_incomplete he (decode_eq_incomplete.2 hd)]

/-- Settles O5: for L of at least 2 the header and the data are `6 + L` bytes, and all of them are buffered. -/
theorem wholeFrameIsRemoved : Obligations.WholeFrameIsRemoved := by
  intro buf l hl h8 h2 hlen
  have hn : 6 + l = 8 + ((be16 (buf.getD 4 0) (buf.getD 5 0)).toNat - 2) := by omega
  have hdata : 6 + l - 8 = l - 2 := by omega
  rw [decodeFrame_of_header h8 hn, if_neg (Nat.not_lt.2 hlen), hdata]

end Sys2Proof.Machine
end

section
/-! PROOFS. The engine family of 41_engine.md: what the default handler answers (R76). -/

namespace Sys2Proof.Machine

/-! ### The bytes of an exception response -/

/-- On the wire an exception response is R52's 9 bytes: the request's tag, its code with bit 7 set, and the exception's code byte;
nothing else of the request is left in it. -/
theorem encodeFrame_deriveException_mkFrame (t : Tag) (fc : U8) (d : List U8) (c : ExceptionCode) :
    encodeFrame (deriveException (mkFrame t fc d) c) = excAdu t (exceptionFunctionCode fc) (exceptionByte c) := by
  have hpid : bytes16 0 = [0x00, 0x00] := by decide
  have hlen : bytes16 3 = [0x00, 0x03] := by decide
  simp only [encodeFrame, deriveException, mkFrame, hpid, hlen]
  rfl

/-- Taking an exception, with an active slot: that slot is sent the exception's 9 bytes, and nothing else changes. -/
theorem takeException_mkFrame {s : State} (h : s.active < s.engines.length) (t : Tag) (fc : U8) (d : List U8)
    (c : ExceptionCode) : takeException s (mkFrame t fc d) c =
      .next (s.send (excAdu t (exceptionFunctionCode fc) (exceptionByte c))) := by
  rw [takeException_next h, encodeFrame_deriveException_mkFrame]

/-! ### The obligation -/

/-- Settles O28: the default handler takes ILLEGAL_FUNCTION at once, whose code byte is `0x01`. -/
theorem illegalFunctionAnswers : Obligations.IllegalFunctionAnswers :=
  fun _ t fc d h => takeException_mkFrame h t fc d .illegalFunction

end Sys2Proof.Machine
end

section
/-! PROOFS. The codec both ways (30_encoding.md, 40_frame_codec.md): a frame, an operand format and an instruction each against
its bytes. -/

namespace Sys2Proof

/-! ### A frame and its bytes -/

/-- Encoding a decoded frame gives back the bytes it took. -/
theorem encodeFrame_of_decodeFrame {buf rest : List U8} {f : Frame} (h : decodeFrame buf = some (f, rest)) :
    encodeFrame f ++ rest = buf := by
  obtain ⟨t1, t0, p1, p0, l1, l0, ht, hp, hl, _, rfl⟩ := decodeFrame_eq_some h
  simp only [encodeFrame, ht, hp, hl, bytes16_be16, List.cons_append, List.nil_append]

/-- A decoded frame has the data its `length` asks for, so `protocol_id` and `length` alone decide its validity. -/
theorem isValid_iff_of_decodeFrame {buf rest : List U8} {f : Frame} (h : decodeFrame buf = some (f, rest)) :
    f.isValid = true ↔ f.protocolId = 0 ∧ 2 ≤ f.length.toNat ∧ f.length.toNat ≤ 260 := by
  obtain ⟨_, _, _, _, _, _, _, _, _, hdata, _⟩ := decodeFrame_eq_some h
  rw [Frame.isValid_iff]
  simp only [hdata, and_true]

theorem decode_of_valid {buf rest : List U8} {f : Frame} (h : decodeFrame buf = some (f, rest)) (hv : f.isValid = true) :
    decode buf = .request (select f) rest := by
  simp only [decode, h, hv, if_true]

theorem decode_of_invalid {buf rest : List U8} {f : Frame} (h : decodeFrame buf = some (f, rest))
    (hv : f.isValid = false) : decode buf = .invalidFrame f := by
  simp only [decode, h, hv, Bool.false_eq_true, if_false]

/-- A structurally valid frame is the one its tag, code and data make. -/
theorem mkFrame_of_isValid {f : Frame} (h : f.isValid = true) : mkFrame f.tag f.functionCode f.data = f := by
  obtain ⟨tid, pid, len, uid, fc, data⟩ := f
  obtain ⟨hpid, hmin, _, hdata⟩ := (Frame.isValid_iff _).1 h
  simp only at hpid hmin hdata
  have hlen : 2 + data.length = len.toNat := by omega
  simp only [mkFrame, Frame.tag, hpid, hlen, BitVec.ofNat_toNat, BitVec.setWidth_eq]

/-- Settles O3: the length field asks for the whole sequence, so nothing is left over, and the frame encodes back to it. -/
theorem wholeFrameEncodesBack : Obligations.WholeFrameEncodesBack := by
  intro x h2 hlen
  have hdec := Machine.decodeFrame_of_header (buf := x) (by omega) rfl
  rw [if_neg (by omega), List.drop_eq_nil_of_le (i := 8 + _) (by omega)] at hdec
  exact ⟨_, hdec, by rw [← List.append_nil (encodeFrame _), encodeFrame_of_decodeFrame hdec]⟩

/-- Settles O6: a length field of 0 or 1 asks for no byte behind the header, and is below the least legal `length`. -/
theorem shortLengthTakesHeaderOnly : Obligations.ShortLengthTakesHeaderOnly := by
  intro buf h8 hlen
  have hdec := Machine.decodeFrame_of_header (n := 8) h8 (by omega)
  rw [if_neg (Nat.not_lt.2 h8)] at hdec
  refine ⟨_, hdec, rfl, rfl, decode_of_invalid hdec ?_⟩
  rw [Bool.eq_false_iff, Ne, isValid_iff_of_decodeFrame hdec]
  simp only
  omega

/-- Settles O7: `decode` dispatches on `is_valid`, which the first two clauses decide. -/
theorem decodedFrameValidity : Obligations.DecodedFrameValidity := by
  intro buf rest f h
  rw [← isValid_iff_of_decodeFrame h]
  cases hv : f.isValid with
  | true => simp only [decode_of_valid h hv, Decoded.request.injEq, and_true, exists_eq', reduceCtorEq, not_true,
      and_self]
  | false => simp only [decode_of_invalid h hv, reduceCtorEq, exists_false, Bool.false_eq_true, not_false_eq_true, and_self]

/-! ### An operand format and its bytes -/

theorem decodeRangeOps_misfit {d : List U8} (h : d.length ≠ 4) : decodeRangeOps d = .misfit d := by
  unfold decodeRangeOps
  split
  · exact absurd rfl h
  · rfl

theorem decodeSingleOps_misfit {d : List U8} (h : d.length ≠ 4) : decodeSingleOps d = .misfit d := by
  unfold decodeSingleOps
  split
  · exact absurd rfl h
  · rfl

theorem decodeMultiOps_misfit {d : List U8} (h : d.length < 5) : decodeMultiOps d = .misfit d := by
  unfold decodeMultiOps
  split
  · simp only [List.length_cons] at h; omega
  · rfl

theorem exists_of_length_four {d : List U8} (h : d.length = 4) : ∃ a b c e, d = [a, b, c, e] := by
  match d, h with
  | [a, b, c, e], _ => exact ⟨a, b, c, e, rfl⟩

theorem exists_of_five_le_length {d : List U8} (h : 5 ≤ d.length) :
    ∃ a b c e f rest, d = a :: b :: c :: e :: f :: rest := by
  match d with
  | [] | [_] | [_, _] | [_, _, _] | [_, _, _, _] => simp at h
  | a :: b :: c :: e :: f :: rest => exact ⟨a, b, c, e, f, rest, rfl⟩

/-- Settles O8: data of the format's length is read field by field, any other data misfits. -/
theorem operandFormats : Obligations.OperandFormats := by
  intro d
  refine ⟨fun h => ?_, fun h => ⟨decodeRangeOps_misfit h, decodeSingleOps_misfit h⟩, fun h => ?_, decodeMultiOps_misfit⟩
  · obtain ⟨a, b, c, e, rfl⟩ := exists_of_length_four h
    exact ⟨rfl, rfl⟩
  · obtain ⟨a, b, c, e, f, rest, rfl⟩ := exists_of_five_le_length h
    rfl

/-- Settles O10: each worked example is a closed frame, which the decoder evaluates. -/
theorem sampleFramesDecode : Obligations.SampleFramesDecode :=
  ⟨by decide, by decide, by decide, by decide, by decide⟩

/-- Reading a format loses no data byte. -/
theorem data_decodeRangeOps (d : List U8) : (decodeRangeOps d).data = d := by
  by_cases h : d.length = 4
  · obtain ⟨a, b, c, e, rfl⟩ := exists_of_length_four h
    simp only [decodeRangeOps, RangeOps.data, bytes16_be16, List.cons_append, List.nil_append]
  · rw [decodeRangeOps_misfit h, RangeOps.data]

theorem data_decodeSingleOps (d : List U8) : (decodeSingleOps d).data = d := by
  by_cases h : d.length = 4
  · obtain ⟨a, b, c, e, rfl⟩ := exists_of_length_four h
    simp only [decodeSingleOps, SingleOps.data, bytes16_be16, List.cons_append, List.nil_append]
  · rw [decodeSingleOps_misfit h, SingleOps.data]

theorem data_decodeMultiOps (d : List U8) : (decodeMultiOps d).data = d := by
  by_cases h : 5 ≤ d.length
  · obtain ⟨a, b, c, e, f, rest, rfl⟩ := exists_of_five_le_length h
    simp only [decodeMultiOps, MultiOps.data, bytes16_be16, List.cons_append, List.nil_append]
  · rw [decodeMultiOps_misfit (by omega), MultiOps.data]

/-- The operands read from data that fits a frame are well formed. -/
theorem wellFormed_decodeRangeOps {d : List U8} (h : d.length ≤ maxData) : (decodeRangeOps d).wellFormed = true := by
  by_cases h4 : d.length = 4
  · obtain ⟨a, b, c, e, rfl⟩ := exists_of_length_four h4
    rfl
  · simp only [decodeRangeOps_misfit h4, RangeOps.wellFormed, h4, h, ne_eq, not_false_eq_true, decide_true, Bool.and_self]

theorem wellFormed_decodeSingleOps {d : List U8} (h : d.length ≤ maxData) : (decodeSingleOps d).wellFormed = true := by
  by_cases h4 : d.length = 4
  · obtain ⟨a, b, c, e, rfl⟩ := exists_of_length_four h4
    rfl
  · simp only [decodeSingleOps_misfit h4, SingleOps.wellFormed, h4, h, ne_eq, not_false_eq_true, decide_true, Bool.and_self]

theorem wellFormed_decodeMultiOps {d : List U8} (h : d.length ≤ maxData) : (decodeMultiOps d).wellFormed = true := by
  by_cases h5 : 5 ≤ d.length
  · obtain ⟨a, b, c, e, f, rest, rfl⟩ := exists_of_five_le_length h5
    simp only [List.length_cons] at h
    simp only [decodeMultiOps, MultiOps.wellFormed, decide_eq_true_eq]
    omega
  · rw [decodeMultiOps_misfit (by omega), MultiOps.wellFormed, decide_eq_true_eq]
    omega

/-- Well-formed operands are the ones read from their own data. -/
theorem decodeRangeOps_data {ops : RangeOps} (h : ops.wellFormed = true) : decodeRangeOps ops.data = ops := by
  cases ops with
  | fields addr count => exact congrArg₂ RangeOps.fields (be16_extract addr) (be16_extract count)
  | misfit d =>
    simp only [RangeOps.wellFormed, Bool.and_eq_true, decide_eq_true_eq] at h
    exact decodeRangeOps_misfit h.1

theorem decodeSingleOps_data {ops : SingleOps} (h : ops.wellFormed = true) : decodeSingleOps ops.data = ops := by
  cases ops with
  | fields addr value => exact congrArg₂ SingleOps.fields (be16_extract addr) (be16_extract value)
  | misfit d =>
    simp only [SingleOps.wellFormed, Bool.and_eq_true, decide_eq_true_eq] at h
    exact decodeSingleOps_misfit h.1

theorem decodeMultiOps_data {ops : MultiOps} (h : ops.wellFormed = true) : decodeMultiOps ops.data = ops := by
  cases ops with
  | fields addr count bc payload =>
    simp only [MultiOps.data, bytes16, List.cons_append, List.nil_append, decodeMultiOps, be16_extract]
  | misfit d =>
    simp only [MultiOps.wellFormed, decide_eq_true_eq] at h
    exact decodeMultiOps_misfit h

/-! ### An instruction and its frame -/

/-- An instruction's frame is made of its tag, its code and its data. -/
theorem toFrame_eq_mkFrame (i : Instr) : i.toFrame = mkFrame i.tag i.toFrame.functionCode i.toFrame.data := by
  cases i <;> rfl

/-- The frame of a well-formed instruction is structurally valid: the table of Laws.FrameIsValid, over all constructors. -/
theorem toFrame_isValid {i : Instr} (h : i.wellFormed = true) : i.toFrame.isValid = true := by
  cases i with
  | readCoils t ops => exact Laws.FrameIsValid.readCoils t ops h
  | readDiscreteInputs t ops => exact Laws.FrameIsValid.readDiscreteInputs t ops h
  | readHoldingRegisters t ops => exact Laws.FrameIsValid.readHoldingRegisters t ops h
  | readInputRegisters t ops => exact Laws.FrameIsValid.readInputRegisters t ops h
  | writeSingleCoil t ops => exact Laws.FrameIsValid.writeSingleCoil t ops h
  | writeSingleRegister t ops => exact Laws.FrameIsValid.writeSingleRegister t ops h
  | writeMultipleCoils t ops => exact Laws.FrameIsValid.writeMultipleCoils t ops h
  | writeMultipleRegisters t ops => exact Laws.FrameIsValid.writeMultipleRegisters t ops h
  | illegalFunction t fc d => exact Laws.FrameIsValid.illegalFunction t fc d h

/-- The frame of a well-formed instruction selects that instruction: its code takes the arm of its constructor, and its data is
read back as its operands. -/
theorem select_toFrame {i : Instr} (h : i.wellFormed = true) : select i.toFrame = i := by
  cases i with
  | readCoils t ops => exact congrArg (Instr.readCoils t) (decodeRangeOps_data h)
  | readDiscreteInputs t ops => exact congrArg (Instr.readDiscreteInputs t) (decodeRangeOps_data h)
  | readHoldingRegisters t ops => exact congrArg (Instr.readHoldingRegisters t) (decodeRangeOps_data h)
  | readInputRegisters t ops => exact congrArg (Instr.readInputRegisters t) (decodeRangeOps_data h)
  | writeSingleCoil t ops => exact congrArg (Instr.writeSingleCoil t) (decodeSingleOps_data h)
  | writeSingleRegister t ops => exact congrArg (Instr.writeSingleRegister t) (decodeSingleOps_data h)
  | writeMultipleCoils t ops => exact congrArg (Instr.writeMultipleCoils t) (decodeMultiOps_data h)
  | writeMultipleRegisters t ops => exact congrArg (Instr.writeMultipleRegisters t) (decodeMultiOps_data h)
  | illegalFunction t fc d =>
    simp only [Instr.wellFormed, Bool.and_eq_true, Bool.not_eq_true'] at h
    exact Machine.select_of_unsupported h.1

/-- Settles O1: an instruction's frame decodes from its bytes, is valid, and selects the instruction. -/
theorem encodedRequestDecodesBack : Obligations.EncodedRequestDecodesBack := by
  intro i rest h
  have hv := toFrame_isValid h
  obtain ⟨_, _, _, hdata⟩ := (Frame.isValid_iff _).1 hv
  rw [encode, decode_of_valid (decodeFrame_encodeFrame hdata rest) hv, select_toFrame h]

/-- What `select` makes of any frame has the frame's tag, code and data. -/
theorem toFrame_select (f : Frame) : (select f).toFrame = mkFrame f.tag f.functionCode f.data := by
  obtain ⟨tid, pid, len, uid, fc, data⟩ := f
  unfold select
  split
  case h_9 => rfl
  all_goals
    rename_i hfc
    obtain rfl := hfc
  case h_1 | h_2 | h_3 | h_4 => exact congrArg (mkFrame _ _) (data_decodeRangeOps data)
  case h_5 | h_6 => exact congrArg (mkFrame _ _) (data_decodeSingleOps data)
  case h_7 | h_8 => exact congrArg (mkFrame _ _) (data_decodeMultiOps data)

/-- What `select` makes of a frame whose data fits is well formed. -/
theorem wellFormed_select {f : Frame} (h : f.data.length ≤ maxData) : (select f).wellFormed = true := by
  unfold select
  split
  case h_1 | h_2 | h_3 | h_4 => exact wellFormed_decodeRangeOps h
  case h_5 | h_6 => exact wellFormed_decodeSingleOps h
  case h_7 | h_8 => exact wellFormed_decodeMultiOps h
  case h_9 => simp_all [Instr.wellFormed, supported]

/-- Settles O2: a request is `select` of a valid frame, which it encodes back to; the frame encodes back to its bytes. -/
theorem decodedRequestEncodesBack : Obligations.DecodedRequestEncodesBack := by
  intro buf i rest h
  obtain ⟨f, hf, hv, rfl⟩ := decode_eq_request h
  obtain ⟨_, hmin, hmax, hdata⟩ := (Frame.isValid_iff _).1 hv
  refine ⟨wellFormed_select (by simp only [maxData]; omega), ?_⟩
  rw [encode, toFrame_select, mkFrame_of_isValid hv, encodeFrame_of_decodeFrame hf]

end Sys2Proof
end

section
/-! PROOFS. The agents' steps, one equation per case (41_engine.md R69-R73, 60_exceptions.md R101, R102, 70_reset_and_hazards.md
R104, R105), and the obligations that each state one agent's step. -/

namespace Sys2Proof.Machine

/-! ### An engine's turn -/

section Slot

variable {s : State} {k : Nat} {e : Engine}

theorem State.modifyEngine_eq_set (he : s.engines[k]? = some e) (f : Engine → Engine) :
    s.modifyEngine k f = { s with engines := s.engines.set k (f e) } := by
  rw [State.modifyEngine, modify_eq_set _ _ _ _ he]

theorem engineTurn_missing (h : s.engines[k]? = none) : engineTurn k s = .fault .noSuchSlot := by
  simp only [engineTurn, h]

theorem engineTurn_idle (he : s.engines[k]? = some e) (hp : e.phase = .idle) : engineTurn k s = .next s := by
  simp only [engineTurn, he, hp]

theorem engineTurn_incomplete (he : s.engines[k]? = some e) (hp : e.phase = .drain) (hd : decode e.rbuf = .incomplete) :
    engineTurn k s = .next { s with engines := s.engines.set k { e with phase := .idle } } := by
  rw [engineTurn_of_drain he hp, drainStep_of_incomplete he hd]

theorem engineTurn_invalidFrame {f : Frame} (he : s.engines[k]? = some e) (hp : e.phase = .drain)
    (hd : decode e.rbuf = .invalidFrame f) :
    engineTurn k s = .next { s with engines := s.engines.set k e.connectionFault } := by
  simp only [engineTurn_of_drain he hp, drainStep, hd, State.modifyEngine_eq_set he]

/-- The turn that finds a request runs it in the state whose active slot is the engine's, with the request's bytes removed. -/
theorem engineTurn_request {i : Instr} {r : List U8} (he : s.engines[k]? = some e) (hp : e.phase = .drain)
    (hd : decode e.rbuf = .request i r) :
    engineTurn k s = exec i { s with active := k, engines := s.engines.set k { e with rbuf := r } } := by
  simp only [engineTurn_of_drain he hp, drainStep, hd, State.modifyEngine_eq_set he]

/-! ### The host's steps -/

variable {chunk : List U8}

theorem hostProcess_missing (h : s.engines[k]? = none) : hostProcess k chunk s = .fault .noSuchSlot := by
  simp only [hostProcess, h]

theorem hostProcess_drain (he : s.engines[k]? = some e) (hp : e.phase = .drain) :
    hostProcess k chunk s = .fault .processWhileDraining := by
  simp only [hostProcess, he, hp]

theorem hostProcess_faulted (he : s.engines[k]? = some e) (hp : e.phase = .idle) (hf : e.fault = true) :
    hostProcess k chunk s = .next s := by
  simp only [hostProcess, he, hp, hf, if_true]

theorem hostProcess_overflow (he : s.engines[k]? = some e) (hp : e.phase = .idle) (hf : e.fault = false)
    (ho : overflows s.rbufCap (e.rbuf ++ chunk).length = true) :
    hostProcess k chunk s = .next { s with engines := s.engines.set k e.connectionFault } := by
  simp only [hostProcess, he, hp, hf, ho, Bool.false_eq_true, if_false, if_true, State.modifyEngine_eq_set he]

theorem hostProcess_fits (he : s.engines[k]? = some e) (hp : e.phase = .idle) (hf : e.fault = false)
    (ho : overflows s.rbufCap (e.rbuf ++ chunk).length = false) :
    hostProcess k chunk s =
      .next { s with engines := s.engines.set k { e with rbuf := e.rbuf ++ chunk, phase := .drain } } := by
  simp only [hostProcess, he, hp, hf, ho, Bool.false_eq_true, if_false, State.modifyEngine_eq_set he]

theorem hostOpen_missing (h : s.engines[k]? = none) : hostOpen k s = .fault .noSuchSlot := by
  simp only [hostOpen, h]

theorem hostOpen_unused (he : s.engines[k]? = some e) (hu : e.unused = true) :
    hostOpen k s = .next { s with engines := s.engines.set k e.opened } := by
  simp only [hostOpen, he, hu, if_true, State.modifyEngine_eq_set he]

theorem hostOpen_inUse (he : s.engines[k]? = some e) (hu : e.unused = false) :
    hostOpen k s = .fault .openWithoutClose := by
  simp only [hostOpen, he, hu, Bool.false_eq_true, if_false]

theorem hostClose_missing (h : s.engines[k]? = none) : hostClose k s = .fault .noSuchSlot := by
  rw [hostClose, if_neg (Nat.not_lt.2 (List.getElem?_eq_none_iff.1 h))]

theorem hostClose_some (he : s.engines[k]? = some e) :
    hostClose k s = .next { s with engines := s.engines.set k e.closed } := by
  rw [hostClose, if_pos (List.getElem?_eq_some_iff.1 he).1, State.modifyEngine_eq_set he]

theorem hostReadFault_missing (h : s.engines[k]? = none) : hostReadFault k s = .fault .noSuchSlot := by
  simp only [hostReadFault, h]

theorem hostReadFault_some (he : s.engines[k]? = some e) :
    hostReadFault k s = .next { s with hostOut := s.hostOut ++ [(k, e.fault)] } := by
  simp only [hostReadFault, he]

theorem overflows_eq_false {cap : Option Nat} {n : Nat} : overflows cap n = false ↔ ∀ c, cap = some c → n ≤ c := by
  cases cap <;> simp [overflows]

theorem overflows_eq_true {cap : Option Nat} {n : Nat} : overflows cap n = true ↔ ∃ c, cap = some c ∧ c < n := by
  cases cap <;> simp [overflows]

end Slot

/-! ### The device's steps -/

section Device

variable {s : State} {addr : Int}

theorem deviceSetBits_co {vs : List Bit} {c : Bank 1} (h : s.store.co.set addr vs = some c) :
    deviceSetBits .co addr vs s = .next ((s.withCo c).answerDevice .written) := by
  simp only [deviceSetBits, h, Option.map_some]

theorem deviceSetWords_hr {vs : List U16} {c : Bank 16} (h : s.store.hr.set addr vs = some c) :
    deviceSetWords .hr addr vs s = .next ((s.withHr c).answerDevice .written) := by
  simp only [deviceSetWords, h, Option.map_some]

theorem deviceSetBits_di_fails {vs : List Bit} (h : s.store.di.set addr vs = none) :
    deviceSetBits .di addr vs s = .next (s.answerDevice .addressRangeError) := by
  simp only [deviceSetBits, h, Option.map_none]

theorem deviceSetBits_co_fails {vs : List Bit} (h : s.store.co.set addr vs = none) :
    deviceSetBits .co addr vs s = .next (s.answerDevice .addressRangeError) := by
  simp only [deviceSetBits, h, Option.map_none]

theorem deviceSetWords_ir_fails {vs : List U16} (h : s.store.ir.set addr vs = none) :
    deviceSetWords .ir addr vs s = .next (s.answerDevice .addressRangeError) := by
  simp only [deviceSetWords, h, Option.map_none]

theorem deviceSetWords_hr_fails {vs : List U16} (h : s.store.hr.set addr vs = none) :
    deviceSetWords .hr addr vs s = .next (s.answerDevice .addressRangeError) := by
  simp only [deviceSetWords, h, Option.map_none]

theorem deviceSetBits_isNext (b : BitBank) (addr : Int) (vs : List Bit) (s : State) :
    ∃ t, deviceSetBits b addr vs s = .next t := by
  cases b with
  | di => cases h : s.store.di.set addr vs with
    | none => exact ⟨_, deviceSetBits_di_fails h⟩
    | some c => exact ⟨_, deviceSetBits_di h⟩
  | co => cases h : s.store.co.set addr vs with
    | none => exact ⟨_, deviceSetBits_co_fails h⟩
    | some c => exact ⟨_, deviceSetBits_co h⟩

theorem deviceSetWords_isNext (b : WordBank) (addr : Int) (vs : List U16) (s : State) :
    ∃ t, deviceSetWords b addr vs s = .next t := by
  cases b with
  | ir => cases h : s.store.ir.set addr vs with
    | none => exact ⟨_, deviceSetWords_ir_fails h⟩
    | some c => exact ⟨_, deviceSetWords_ir h⟩
  | hr => cases h : s.store.hr.set addr vs with
    | none => exact ⟨_, deviceSetWords_hr_fails h⟩
    | some c => exact ⟨_, deviceSetWords_hr h⟩

end Device

/-! ### Obligations: engines -/

/-- Settles O34: the agenda's turn is the drain step that finds the request. -/
theorem stepRunsDecodedInstruction : Obligations.StepRunsDecodedInstruction := by
  intro s k rest e i r hag he hp hd
  exact (step_cons hag).trans (engineTurn_request (s := { s with agenda := rest }) he hp hd)

theorem firstDraining_eq_none {es : List Engine} (h : ∀ e ∈ es, e.phase = .idle) : firstDraining es = none := by
  rw [firstDraining, List.findIdx?_eq_none_iff]
  intro e he
  simp only [h e he, reduceCtorEq, decide_false]

theorem firstDraining_eq_some {es : List Engine} {k : Nat} {e : Engine} (he : es[k]? = some e) (hp : e.phase = .drain)
    (hlow : ∀ (j : Nat) (e : Engine), j < k → es[j]? = some e → e.phase = .idle) : firstDraining es = some k := by
  obtain ⟨hk, rfl⟩ := List.getElem?_eq_some_iff.1 he
  rw [firstDraining, List.findIdx?_eq_some_iff_getElem]
  refine ⟨hk, decide_eq_true hp, fun j hj => ?_⟩
  simp only [hlow j _ hj (List.getElem?_eq_getElem (by omega)), reduceCtorEq, decide_false, Bool.false_eq_true,
    not_false_eq_true]

/-- Settles O35: with an empty agenda `firstDraining` picks the lowest engine that drains, and none where all are idle. -/
theorem emptyAgendaStep : Obligations.EmptyAgendaStep := by
  intro s hag
  refine ⟨fun hidle => ?_, fun k hk hlow => ?_⟩
  · simp only [step, nextStep, hag, firstDraining_eq_none hidle]
  · obtain ⟨e, he, hp⟩ := hk
    obtain ⟨store, engines, rbufCap, active, agenda, deviceOut, hostOut⟩ := s
    obtain rfl : agenda = [] := hag
    simp only [step, nextStep, firstDraining_eq_some he hp hlow, perform]

/-- Settles O36: the turn that finds an invalid frame is the connection fault of its engine. -/
theorem invalidFrameFaultsConnection : Obligations.InvalidFrameFaultsConnection := by
  intro s k rest e f hag he hp hd
  exact (step_cons hag).trans (engineTurn_invalidFrame (s := { s with agenda := rest }) he hp hd)

/-- Settles O37: an idle engine's turn is no step of it, and the turn without a whole frame changes the phase. -/
theorem engineWaitsWithoutFrame : Obligations.EngineWaitsWithoutFrame := by
  intro s k rest e hag he
  refine ⟨fun hp => ?_, fun hp hd => ?_⟩
  · exact (step_cons hag).trans (engineTurn_idle (s := { s with agenda := rest }) he hp)
  · exact (step_cons hag).trans (engineTurn_incomplete (s := { s with agenda := rest }) he hp hd)

/-! ### Obligations: host and device -/

/-- Settles O38: the three cases of a call on an idle engine, by the fault bit and by what `RBUF_CAP` leaves room for. -/
theorem processTakesChunk : Obligations.ProcessTakesChunk := by
  intro s k chunk rest e hag he hp
  rw [step_cons hag, ← List.length_append]
  refine ⟨fun hf => ?_, fun hf hfits => ?_, fun hf hover => ?_⟩
  · exact hostProcess_faulted (s := { s with agenda := rest }) he hp hf
  · exact hostProcess_fits (s := { s with agenda := rest }) he hp hf (overflows_eq_false.2 hfits)
  · exact hostProcess_overflow (s := { s with agenda := rest }) he hp hf (overflows_eq_true.2 hover)

/-- Settles O39: a close has one case, and an open two, by whether the slot is in use. -/
theorem openAndCloseResetSlot : Obligations.OpenAndCloseResetSlot := by
  intro s k rest e he
  refine ⟨fun hag => ?_, fun hag hunused => ?_, fun hag hused => ?_⟩
  · exact (step_cons hag).trans (hostClose_some (s := { s with agenda := rest }) he)
  · exact (step_cons hag).trans
      (hostOpen_unused (s := { s with agenda := rest }) he ((Engine.unused_iff e).2 hunused))
  · exact (step_cons hag).trans
      (hostOpen_inUse (s := { s with agenda := rest }) he ((Engine.unused_eq_false e).2 hused))

/-- Settles O40: the read of an existing slot's fault bit goes to the host's log. -/
theorem hostReadsFaultBit : Obligations.HostReadsFaultBit := by
  intro s k rest e hag he
  exact (step_cons hag).trans (hostReadFault_some (s := { s with agenda := rest }) he)

/-- Settles O41: on every bank the reply is the bank's own `get`, which answers exactly in range. -/
theorem deviceGetReturnsCells : Obligations.DeviceGetReturnsCells := by
  intro s addr count rest
  refine ⟨fun hag => ?_, fun hag => ?_, fun hag => ?_, fun hag => ?_⟩
  all_goals
    simp only [step_cons hag, perform, deviceGet, Bank.get_eq_ite]
    refine ⟨fun h => ?_, fun h => ?_⟩
    · rw [if_pos h]; rfl
    · rw [if_neg h]; rfl

/-- `set` in range, on a canonical bank: it writes exactly its range (20_memory.md R27). -/
theorem Bank.set_inside {w : Nat} {b : Bank w} (hb : b.wf = true) {addr : Int} {vs : List (BitVec w)}
    (h : 0 ≤ addr ∧ addr + vs.length ≤ b.cap) :
    ∃ c, b.set addr vs = some c ∧ WrittenRange b c addr.toNat vs.length fun i => vs.getD i 0 :=
  (bankSetWritesCells w b addr vs hb).2 h

theorem Bank.set_outside {w : Nat} {b : Bank w} {addr : Int} {vs : List (BitVec w)}
    (h : ¬(0 ≤ addr ∧ addr + vs.length ≤ b.cap)) : b.set addr vs = none := by
  rw [Bank.set_eq_ite, if_neg h]

/-- Settles O42: on either bit bank the step is the bank's own `set`. -/
theorem deviceSetWritesBits : Obligations.DeviceSetWritesBits := by
  intro s addr vs rest hwf
  obtain ⟨hdi, hco, _, _⟩ := (DataStore.wf_iff _).1 hwf
  refine ⟨fun hag => ?_, fun hag => ?_⟩ <;> rw [step_cons hag]
  · refine ⟨fun h => ?_, fun h => deviceSetBits_di_fails (s := { s with agenda := rest }) (Bank.set_outside h)⟩
    obtain ⟨c, hset, hc⟩ := Bank.set_inside hdi h
    exact ⟨c, hc, deviceSetBits_di (s := { s with agenda := rest }) hset⟩
  · refine ⟨fun h => ?_, fun h => deviceSetBits_co_fails (s := { s with agenda := rest }) (Bank.set_outside h)⟩
    obtain ⟨c, hset, hc⟩ := Bank.set_inside hco h
    exact ⟨c, hc, deviceSetBits_co (s := { s with agenda := rest }) hset⟩

/-- Settles O43: on either word bank the step is the bank's own `set`. -/
theorem deviceSetWritesWords : Obligations.DeviceSetWritesWords := by
  intro s addr vs rest hwf
  obtain ⟨_, _, hir, hhr⟩ := (DataStore.wf_iff _).1 hwf
  refine ⟨fun hag => ?_, fun hag => ?_⟩ <;> rw [step_cons hag]
  · refine ⟨fun h => ?_, fun h => deviceSetWords_ir_fails (s := { s with agenda := rest }) (Bank.set_outside h)⟩
    obtain ⟨c, hset, hc⟩ := Bank.set_inside hir h
    exact ⟨c, hc, deviceSetWords_ir (s := { s with agenda := rest }) hset⟩
  · refine ⟨fun h => ?_, fun h => deviceSetWords_hr_fails (s := { s with agenda := rest }) (Bank.set_outside h)⟩
    obtain ⟨c, hset, hc⟩ := Bank.set_inside hhr h
    exact ⟨c, hc, deviceSetWords_hr (s := { s with agenda := rest }) hset⟩

end Sys2Proof.Machine
end

section
/-! PROOFS. What every step keeps: legal states (10_state.md, 41_engine.md R70-R73), isolation of the connections
(60_exceptions.md R100), the logs, the sticky fault, and where the machine stops (70_reset_and_hazards.md R105, R107). -/

namespace Sys2Proof.Machine

/-! ### What no step changes -/

/-- The fields of a legal state that a step does not change, but for the active slot, which stays an existing one. -/
def KeepsFrame (s t : State) : Prop :=
  t.rbufCap = s.rbufCap ∧ (t.active = s.active ∨ t.active < s.engines.length)

theorem engineTurn_keepsFrame {s t : State} {k : Nat} (h : engineTurn k s = .next t) : KeepsFrame s t := by
  obtain ⟨e, he, hc⟩ := engineTurn_cases h
  rcases hc with ⟨_, rfl⟩ | ⟨_, _, rfl⟩ | ⟨_, _, rfl⟩ | ⟨_, i, r, d, bytes, _, _, rfl⟩
  · exact ⟨rfl, .inl rfl⟩
  · exact ⟨rfl, .inl rfl⟩
  · exact ⟨rfl, .inl rfl⟩
  · exact ⟨rfl, .inr (List.getElem?_eq_some_iff.1 he).1⟩

theorem hostProcess_keepsFrame {s t : State} {k : Nat} {chunk : List U8} (h : hostProcess k chunk s = .next t) :
    KeepsFrame s t := by
  unfold hostProcess at h
  split at h
  · cases h
  · split at h
    · cases h
    · split at h
      · cases h; exact ⟨rfl, .inl rfl⟩
      · split at h <;> cases h <;> exact ⟨rfl, .inl rfl⟩

theorem perform_keepsFrame {ev : Event} {s t : State} (h : perform ev s = .next t) : KeepsFrame s t := by
  cases ev with
  | engine k => exact engineTurn_keepsFrame h
  | process k chunk => exact hostProcess_keepsFrame h
  | connOpen k =>
    obtain ⟨_, _, _, rfl⟩ := hostOpen_cases h
    exact ⟨rfl, .inl rfl⟩
  | connClose k =>
    simp only [perform, hostClose] at h
    split at h <;> cases h
    exact ⟨rfl, .inl rfl⟩
  | readFault k =>
    simp only [perform, hostReadFault] at h
    split at h <;> cases h
    exact ⟨rfl, .inl rfl⟩
  | devGet b a n =>
    cases h
    exact ⟨rfl, .inl rfl⟩
  | devSetBits b a vs =>
    rcases deviceSetBits_cases h with ⟨r, rfl⟩ | ⟨_, c, _, rfl⟩ | ⟨_, c, _, rfl⟩ <;> exact ⟨rfl, .inl rfl⟩
  | devSetWords b a vs =>
    rcases deviceSetWords_cases h with ⟨r, rfl⟩ | ⟨_, c, _, rfl⟩ | ⟨_, c, _, rfl⟩ <;> exact ⟨rfl, .inl rfl⟩

theorem step_keepsFrame {s t : State} (h : step s = .next t) : KeepsFrame s t := by
  rcases step_cases h with ⟨ev, rest, _, h⟩ | ⟨_, k, _, h⟩ | ⟨_, _, rfl⟩
  · exact perform_keepsFrame (s := { s with agenda := rest }) h
  · exact engineTurn_keepsFrame h
  · exact ⟨rfl, .inl rfl⟩

/-! ### Legal engines -/

theorem Engine.wf_iff {cap : Option Nat} {e : Engine} : e.wf cap = true ↔
    (e.fault = true → e.phase = .idle ∧ e.rbuf = []) ∧ (e.phase = .idle → decode e.rbuf = .incomplete) ∧
      overflows cap e.rbuf.length = false := by
  cases hp : e.phase <;> cases hf : e.fault <;> simp [Engine.wf, hp, hf, and_assoc]

theorem overflows_mono {cap : Option Nat} {m n : Nat} (h : overflows cap n = false) (hmn : m ≤ n) :
    overflows cap m = false :=
  overflows_eq_false.2 fun c hc => hmn.trans (overflows_eq_false.1 h c hc)

/-- A draining engine that is legal is not faulted. -/
theorem Engine.wf_unfaulted {cap : Option Nat} {e : Engine} (h : e.wf cap = true) (hp : e.phase = .drain) :
    e.fault = false := by
  obtain ⟨hfault, _, _⟩ := Engine.wf_iff.1 h
  by_contra hf
  rw [(hfault (by simpa using hf)).1] at hp
  cases hp

/-- An idle engine with an empty buffer is legal: no frame is whole, and no `RBUF_CAP` is too small. -/
theorem Engine.wf_of_empty {cap : Option Nat} {e : Engine} (hp : e.phase = .idle) (hr : e.rbuf = []) :
    e.wf cap = true := by
  rw [Engine.wf_iff, hr]
  exact ⟨fun _ => ⟨hp, rfl⟩, fun _ => rfl, overflows_eq_false.2 fun c _ => Nat.zero_le c⟩

/-- An engine that goes idle for want of a whole frame stays legal. -/
theorem Engine.wf_waiting {cap : Option Nat} {e : Engine} (h : e.wf cap = true) (hp : e.phase = .drain)
    (hd : decode e.rbuf = .incomplete) : Engine.wf cap { e with phase := .idle } = true := by
  have hf := Engine.wf_unfaulted h hp
  obtain ⟨_, _, hcap⟩ := Engine.wf_iff.1 h
  rw [Engine.wf_iff]
  exact ⟨fun hf' => by simp [hf] at hf', fun _ => hd, hcap⟩

/-- An engine that has answered a request stays legal: it still drains, and its buffer is shorter. -/
theorem Engine.wf_answered {cap : Option Nat} {e : Engine} (h : e.wf cap = true) (hp : e.phase = .drain) {i : Instr}
    {r : List U8} (hd : decode e.rbuf = .request i r) (out : List OutItem) :
    Engine.wf cap { e with rbuf := r, out := out } = true := by
  have hf := Engine.wf_unfaulted h hp
  have hlen := decode_request_rest_length hd
  obtain ⟨_, _, hcap⟩ := Engine.wf_iff.1 h
  rw [Engine.wf_iff]
  exact ⟨fun hf' => by simp [hf] at hf', fun hp' => by simp [hp] at hp', overflows_mono hcap (by simp only; omega)⟩

/-- An engine that took a chunk within `RBUF_CAP` is legal: it drains, and is not faulted. -/
theorem Engine.wf_delivered {cap : Option Nat} {e : Engine} {chunk : List U8} (hf : e.fault = false)
    (ho : overflows cap (e.rbuf ++ chunk).length = false) :
    Engine.wf cap { e with rbuf := e.rbuf ++ chunk, phase := .drain } = true := by
  rw [Engine.wf_iff]
  exact ⟨fun hf' => by simp [hf] at hf', fun hp' => by simp at hp', ho⟩

theorem forall_wf_set {cap : Option Nat} {es : List Engine} (h : ∀ x ∈ es, x.wf cap = true) (k : Nat) {e : Engine}
    (he : e.wf cap = true) : ∀ x ∈ es.set k e, x.wf cap = true := by
  intro x hx
  rcases List.mem_or_eq_of_mem_set hx with hx | rfl
  · exact h x hx
  · exact he

/-- Each way a step changes an engine keeps every engine legal. -/
theorem StepEffect.engines_wf {s t : State} (h : StepEffect s t) (hs : ∀ x ∈ s.engines, x.wf s.rbufCap = true) :
    ∀ x ∈ t.engines, x.wf s.rbufCap = true := by
  cases h with
  | idle _ hen => rwa [hen]
  | devB _ _ _ _ _ hen => rwa [hen]
  | devW _ _ _ _ _ hen => rwa [hen]
  | eng k e e' he _ hen hw =>
    have hwf := hs e (List.mem_of_getElem? he)
    rw [hen]
    refine forall_wf_set hs k ?_
    rcases hw with ⟨hp, hd, rfl, _⟩ | ⟨_, rfl, _⟩ | ⟨hp, i, r, bytes, hd, rfl⟩
    · exact Engine.wf_waiting hwf hp hd
    · exact Engine.wf_of_empty rfl rfl
    · exact Engine.wf_answered hwf hp hd _
  | host k e e' he _ hen hw =>
    rw [hen]
    refine forall_wf_set hs k ?_
    rcases hw with ⟨_, _, rfl⟩ | ⟨_, _, _, _, _, _, rfl⟩ | ⟨c, _, _, _, hf, ho, rfl⟩
    · exact Engine.wf_of_empty rfl rfl
    · exact Engine.wf_of_empty rfl rfl
    · exact Engine.wf_delivered hf ho

theorem StepEffect.engines_length {s t : State} (h : StepEffect s t) : t.engines.length = s.engines.length := by
  cases h with
  | idle _ hen => rw [hen]
  | devB _ _ _ _ _ hen => rw [hen]
  | devW _ _ _ _ _ hen => rw [hen]
  | eng _ _ _ _ _ hen => rw [hen, List.length_set]
  | host _ _ _ _ _ hen => rw [hen, List.length_set]

/-- Each way a step changes the store keeps the memory canonical. -/
theorem StepEffect.store_wf {s t : State} (h : StepEffect s t) (hs : Memory.wf s.store = true) :
    Memory.wf t.store = true := by
  obtain ⟨hdi, hco, hir, hhr⟩ := (DataStore.wf_iff _).1 hs
  cases h with
  | idle hst => rwa [hst]
  | host _ _ _ _ hst => rwa [hst]
  | eng _ _ _ _ hst => exact hst.wf hs
  | devB _ _ _ _ _ _ hw =>
    rw [DataStore.wf_iff]
    rcases hw with ⟨_, c, hset, hst⟩ | ⟨_, c, hset, hst⟩ <;> rw [hst]
    · exact ⟨Bank.set_wf hset hdi, hco, hir, hhr⟩
    · exact ⟨hdi, Bank.set_wf hset hco, hir, hhr⟩
  | devW _ _ _ _ _ _ hw =>
    rw [DataStore.wf_iff]
    rcases hw with ⟨_, c, hset, hst⟩ | ⟨_, c, hset, hst⟩ <;> rw [hst]
    · exact ⟨hdi, hco, Bank.set_wf hset hir, hhr⟩
    · exact ⟨hdi, hco, hir, Bank.set_wf hset hhr⟩

/-! ### Legal states -/

theorem State.wf_iff {s : State} : s.wf = true ↔
    Memory.wf s.store = true ∧ s.active < s.engines.length ∧ ∀ e ∈ s.engines, e.wf s.rbufCap = true := by
  simp only [State.wf, Bool.and_eq_true, decide_eq_true_eq, List.all_eq_true, and_assoc]

/-- Settles O44: each effect of a step keeps the memory canonical and the engines legal, and no step changes `RBUF_CAP` or makes
a slot active that does not exist. -/
theorem stepKeepsLegalState : Obligations.StepKeepsLegalState := by
  intro s t hs h
  obtain ⟨hmem, hact, heng⟩ := State.wf_iff.1 hs
  obtain ⟨hcap, hact'⟩ := step_keepsFrame h
  have heff := step_effect h
  rw [State.wf_iff, hcap, heff.engines_length]
  refine ⟨heff.store_wf hmem, ?_, heff.engines_wf heng⟩
  rcases hact' with hact' | hact'
  · rwa [hact']
  · exact hact'

/-- The machine built within the ranges of R5 is legal: banks as built are canonical, and reset engines are idle and empty. -/
theorem State.initial_wf {p : Params} (hp : p.wf = true) : (State.initial p).wf = true := by
  rw [State.wf_iff]
  refine ⟨State.initial_memory_wf hp, ?_, fun e he => ?_⟩
  · simp only [Params.wf, Bool.and_eq_true, decide_eq_true_eq] at hp
    obtain ⟨⟨⟨⟨hconn, _⟩, _⟩, _⟩, _⟩ := hp
    change 0 < (List.replicate p.nConn Engine.reset).length
    rw [List.length_replicate]
    exact hconn
  · obtain rfl : e = Engine.reset := List.eq_of_mem_replicate he
    exact Engine.wf_of_empty rfl rfl

/-- Settles O45: the reset state is the machine built with the default parameters, which are in range. -/
theorem initialStateIsLegal : Obligations.InitialStateIsLegal :=
  ⟨fun _ hp => State.initial_wf hp, State.initial_wf (by decide)⟩

/-- Settles O46: every field as `State.initial` builds it; the engines are `N_CONN` copies of the reset engine. -/
theorem initialStateValues : Obligations.InitialStateValues := by
  refine ⟨fun p a => ⟨rfl, rfl, rfl, rfl, rfl, List.length_replicate, fun ha => ?_⟩, rfl, rfl, rfl, rfl, rfl⟩
  exact List.getElem?_replicate_of_lt ha

/-! ### The connections -/

/-- The events of an engine's turn or of a host's step on slot `k` (60_exceptions.md R100, R102). -/
def Event.OnSlot (ev : Event) (k : Nat) : Prop :=
  ev = .engine k ∨ ev = .connOpen k ∨ ev = .connClose k ∨ ev = .readFault k ∨ ∃ chunk, ev = .process k chunk

theorem Event.OnSlot.unique {ev : Event} {j k : Nat} (hj : ev.OnSlot j) (hk : ev.OnSlot k) : j = k := by
  rcases hj with rfl | rfl | rfl | rfl | ⟨_, rfl⟩ <;> simpa [Event.OnSlot, eq_comm] using hk

/-- A step with an event on the agenda leaves every engine as it was, or sets the one of the event's own slot. -/
theorem StepEffect.engines_of_event {s t : State} {ev : Event} {rest : List Event} (h : StepEffect s t)
    (hag : s.agenda = ev :: rest) : t.engines = s.engines ∨ ∃ k e', ev.OnSlot k ∧ t.engines = s.engines.set k e' := by
  have head {ev' : Event} {rest' : List Event} (h' : s.agenda = ev' :: rest') : ev = ev' :=
    (List.cons.inj (hag.symm.trans h')).1
  cases h with
  | idle _ hen => exact .inl hen
  | devB _ _ _ _ _ hen => exact .inl hen
  | devW _ _ _ _ _ hen => exact .inl hen
  | eng k e e' _ _ hen _ hag' =>
    rcases hag' with ⟨rest', hag'⟩ | hag'
    · exact .inr ⟨k, e', .inl (head hag'), hen⟩
    · rw [hag] at hag'; cases hag'
  | host k e e' _ _ hen hw =>
    refine .inr ⟨k, e', ?_, hen⟩
    rcases hw with ⟨_, hag', _⟩ | ⟨c, _, hag', _⟩ | ⟨c, _, hag', _⟩
    · exact .inr (.inr (.inl (head hag')))
    · exact .inr (.inr (.inr (.inr ⟨c, head hag'⟩)))
    · exact .inr (.inr (.inr (.inr ⟨c, head hag'⟩)))

/-- Settles O47: only the engine of the event's own slot can be set, and a device's event is on no slot. -/
theorem enginesAreIsolated : Obligations.EnginesAreIsolated := by
  intro s t ev rest hag h
  have hev := (step_effect h).engines_of_event hag
  refine ⟨fun j k hjk hk => ?_, fun hdev => ?_⟩
  · rcases hev with hen | ⟨k', e', hk', hen⟩
    · rw [hen]
    · obtain rfl := Event.OnSlot.unique hk hk'
      rw [hen, List.getElem?_set_ne (Ne.symm hjk)]
  · rcases hev with hen | ⟨k', e', hk', _⟩
    · exact hen
    · rcases hdev with ⟨b, a, n, rfl⟩ | ⟨b, a, v, rfl⟩ | ⟨b, a, v, rfl⟩ <;> simp [Event.OnSlot] at hk'

/-- Settles O49: of the ways a step changes an engine, a request and a close append one entry to its log; the others keep it. -/
theorem outputLogOnlyGrows : Obligations.OutputLogOnlyGrows := by
  intro s t k e e' h he he'
  have kept (hen : t.engines = s.engines) : e'.out = e.out := by
    rw [hen, he] at he'
    rw [Option.some.inj he']
  cases step_effect h with
  | idle _ hen => exact .inl (kept hen)
  | devB _ _ _ _ _ hen => exact .inl (kept hen)
  | devW _ _ _ _ _ hen => exact .inl (kept hen)
  | eng j x y hx _ hen hw =>
    rw [hen] at he'
    rcases getElem?_set_cases hx he he' with ⟨rfl, rfl, rfl⟩ | rfl
    · rcases hw with ⟨_, _, rfl, _⟩ | ⟨_, rfl, _⟩ | ⟨_, i, r, bytes, _, rfl⟩
      · exact .inl rfl
      · exact .inl rfl
      · exact .inr ⟨.frame bytes, rfl⟩
    · exact .inl rfl
  | host j x y hx _ hen hw =>
    rw [hen] at he'
    rcases getElem?_set_cases hx he he' with ⟨rfl, rfl, rfl⟩ | rfl
    · rcases hw with ⟨_, _, rfl⟩ | ⟨_, _, _, _, _, _, rfl⟩ | ⟨_, _, _, _, _, _, rfl⟩
      · exact .inr ⟨.close, rfl⟩
      · exact .inl rfl
      · exact .inl rfl
    · exact .inl rfl

/-- Settles O50: an engine's turn changes an engine only where it drains, and a chunk only where it is not faulted; the store
changes only by a turn that drains or by the device. -/
theorem faultLastsUntilClose : Obligations.FaultLastsUntilClose := by
  intro s t k e he hf hp h hclose
  -- An engine that drains, or is not faulted, is not the one of slot `k`.
  have other {j : Nat} {x : Engine} (hx : s.engines[j]? = some x) (hne : x ≠ e) : j ≠ k := by
    rintro rfl
    exact hne (Option.some.inj (hx.symm.trans he))
  cases step_effect h with
  | idle hst hen => exact ⟨hen ▸ he, fun _ => hst⟩
  | devB _ _ _ _ hag hen =>
    refine ⟨hen ▸ he, fun hev => ?_⟩
    rcases hev with ⟨_, hag'⟩ | ⟨_, _, hag'⟩ <;> cases hag.symm.trans hag'
  | devW _ _ _ _ hag hen =>
    refine ⟨hen ▸ he, fun hev => ?_⟩
    rcases hev with ⟨_, hag'⟩ | ⟨_, _, hag'⟩ <;> cases hag.symm.trans hag'
  | eng j x y hx _ hen hw hag =>
    have hxp : x.phase = .drain := by
      rcases hw with ⟨hxp, _⟩ | ⟨hxp, _⟩ | ⟨hxp, _⟩ <;> exact hxp
    have hjk : j ≠ k := other hx fun hxe => by rw [hxe, hp] at hxp; cases hxp
    refine ⟨by rw [hen, List.getElem?_set_ne hjk, he], fun hev => ?_⟩
    rcases hag with ⟨_, hag⟩ | hag <;> rcases hev with ⟨_, hag'⟩ | ⟨_, _, hag'⟩ <;> cases hag.symm.trans hag'
    exact absurd rfl hjk
  | host j x y hx hst hen hw =>
    have hjk : j ≠ k := by
      rcases hw with ⟨_, hag, _⟩ | ⟨_, _, _, _, hxf, _⟩ | ⟨_, _, _, _, hxf, _⟩
      · rintro rfl; exact hclose _ hag
      · exact other hx fun hxe => by rw [hxe, hf] at hxf; cases hxf
      · exact other hx fun hxe => by rw [hxe, hf] at hxf; cases hxf
    exact ⟨by rw [hen, List.getElem?_set_ne hjk, he], fun _ => hst⟩

/-! ### Where the machine stops -/

/-- The agents' steps that the spec gives no meaning, and the fault each is in the model (log 7, log 8, log 9). -/
inductive Misuse (s : State) : Event → Fault → Prop where
  | missingSlot {ev : Event} {k : Nat} (hev : ev.OnSlot k) (hk : s.engines.length ≤ k) : Misuse s ev .noSuchSlot
  | processDraining {k : Nat} {chunk : List U8} {e : Engine} (he : s.engines[k]? = some e) (hp : e.phase = .drain) :
    Misuse s (.process k chunk) .processWhileDraining
  | openInUse {k : Nat} {e : Engine} (he : s.engines[k]? = some e) (hu : e.unused = false) :
    Misuse s (.connOpen k) .openWithoutClose

theorem Misuse.of_missing {s : State} {ev : Event} {k : Nat} (hev : ev.OnSlot k) (h : s.engines[k]? = none) :
    Misuse s ev .noSuchSlot :=
  .missingSlot hev (List.getElem?_eq_none_iff.1 h)

/-- An existing slot's turn answers a next state: a request is answered whatever it is. -/
theorem engineTurn_isNext {s : State} {k : Nat} {e : Engine} (he : s.engines[k]? = some e) :
    ∃ t, engineTurn k s = .next t := by
  cases hp : e.phase with
  | idle => exact ⟨_, engineTurn_idle he hp⟩
  | drain =>
    cases hd : decode e.rbuf with
    | incomplete => exact ⟨_, engineTurn_incomplete he hp hd⟩
    | invalidFrame f => exact ⟨_, engineTurn_invalidFrame he hp hd⟩
    | request i r =>
      rw [engineTurn_request he hp hd]
      obtain ⟨d, f, _, hx⟩ := exec_next (i := i)
        (s := { s with active := k, engines := s.engines.set k { e with rbuf := r } })
        (by simpa only [List.length_set] using (List.getElem?_eq_some_iff.1 he).1)
      exact ⟨_, hx⟩

/-- Every event's step answers a next state, or is a misuse that stops the machine. -/
theorem perform_isNext_or_misuse (ev : Event) (s : State) :
    (∃ t, perform ev s = .next t) ∨ ∃ r, perform ev s = .fault r ∧ Misuse s ev r := by
  cases ev with
  | engine k =>
    cases he : s.engines[k]? with
    | none => exact .inr ⟨_, engineTurn_missing he, .of_missing (.inl rfl) he⟩
    | some e => exact .inl (engineTurn_isNext he)
  | connOpen k =>
    cases he : s.engines[k]? with
    | none => exact .inr ⟨_, hostOpen_missing he, .of_missing (.inr (.inl rfl)) he⟩
    | some e =>
      cases hu : e.unused with
      | true => exact .inl ⟨_, hostOpen_unused he hu⟩
      | false => exact .inr ⟨_, hostOpen_inUse he hu, .openInUse he hu⟩
  | connClose k =>
    cases he : s.engines[k]? with
    | none => exact .inr ⟨_, hostClose_missing he, .of_missing (.inr (.inr (.inl rfl))) he⟩
    | some e => exact .inl ⟨_, hostClose_some he⟩
  | readFault k =>
    cases he : s.engines[k]? with
    | none => exact .inr ⟨_, hostReadFault_missing he, .of_missing (.inr (.inr (.inr (.inl rfl)))) he⟩
    | some e => exact .inl ⟨_, hostReadFault_some he⟩
  | process k chunk =>
    cases he : s.engines[k]? with
    | none => exact .inr ⟨_, hostProcess_missing he, .of_missing (.inr (.inr (.inr (.inr ⟨chunk, rfl⟩)))) he⟩
    | some e =>
      cases hp : e.phase with
      | drain => exact .inr ⟨_, hostProcess_drain he hp, .processDraining he hp⟩
      | idle =>
        cases hf : e.fault with
        | true => exact .inl ⟨_, hostProcess_faulted he hp hf⟩
        | false =>
          cases ho : overflows s.rbufCap (e.rbuf ++ chunk).length with
          | true => exact .inl ⟨_, hostProcess_overflow he hp hf ho⟩
          | false => exact .inl ⟨_, hostProcess_fits he hp hf ho⟩
  | devGet b a n => exact .inl ⟨_, rfl⟩
  | devSetBits b a vs => exact .inl (deviceSetBits_isNext b a vs s)
  | devSetWords b a vs => exact .inl (deviceSetWords_isNext b a vs s)

/-- A step answers a next state, or stops at a misuse that the agenda asks for: an engine that drains exists. -/
theorem step_isNext_or_misuse (s : State) :
    (∃ t, step s = .next t) ∨ ∃ ev rest r, s.agenda = ev :: rest ∧ step s = .fault r ∧ Misuse s ev r := by
  cases hag : s.agenda with
  | cons ev rest =>
    rw [step_cons hag]
    rcases perform_isNext_or_misuse ev { s with agenda := rest } with h | ⟨r, h, hm⟩
    · exact .inl h
    · refine .inr ⟨ev, rest, r, rfl, h, ?_⟩
      cases hm with
      | missingSlot hev hk => exact .missingSlot hev hk
      | processDraining he hp => exact .processDraining he hp
      | openInUse he hu => exact .openInUse he hu
  | nil =>
    simp only [step, nextStep, hag]
    cases hk : firstDraining s.engines with
    | none => exact .inl ⟨s, rfl⟩
    | some k =>
      obtain ⟨hlt, _⟩ := List.findIdx?_eq_some_iff_getElem.1 hk
      exact .inl (engineTurn_isNext (List.getElem?_eq_getElem hlt))

/-- Settles O51: a step that answers no next state is a misuse, and each misuse is one of the three. -/
theorem stopsOnlyOnMisuse : Obligations.StopsOnlyOnMisuse := by
  intro s
  rcases step_isNext_or_misuse s with ⟨t, ht⟩ | ⟨ev, rest, r', hag, hr', hm⟩
  · rw [ht]
    exact ⟨fun _ h => (by cases h), fun _ h => (by cases h)⟩
  · rw [hr']
    refine ⟨fun _ h => (by cases h), fun r h => ?_⟩
    cases h
    cases hm with
    | @missingSlot _ k hev hk =>
      refine .inl ⟨k, rest, ?_, hk, rfl⟩
      rcases hev with rfl | rfl | rfl | rfl | ⟨chunk, rfl⟩
      · exact .inl hag
      · exact .inr (.inl hag)
      · exact .inr (.inr (.inl hag))
      · exact .inr (.inr (.inr (.inl hag)))
      · exact .inr (.inr (.inr (.inr ⟨chunk, hag⟩)))
    | @processDraining k chunk e he hp => exact .inr (.inl ⟨k, chunk, rest, e, hag, he, hp, rfl⟩)
    | @openInUse k e he hu => exact .inr (.inr ⟨k, rest, e, hag, he, (Engine.unused_eq_false e).1 hu, rfl⟩)

end Sys2Proof.Machine
end

section
/-! PROOFS. Cells in frames (20_memory.md R29, R30, R34): packed bits, words on the wire, and a write done twice. -/

namespace Sys2Proof.Machine

/-! ### Packed bits -/

theorem PackedBits.length_eq {p : List U8} {n : Nat} {f : Nat → Bit} (h : PackedBits p n f) : p.length = (n + 7) / 8 := h.1

theorem PackedBits.congr {p : List U8} {n : Nat} {f g : Nat → Bit} (h : PackedBits p n f) (hfg : ∀ i, i < n → f i = g i) :
    PackedBits p n g := by
  obtain ⟨hlen, hbits⟩ := h
  refine ⟨hlen, fun i hi => ?_⟩
  rw [hbits i hi]
  split
  · rename_i hin
    rw [hfg i hin]
  · rfl

theorem packedBits_pack (v : List Bit) : PackedBits (pack v) v.length fun i => v.getD i 0 := by
  refine ⟨pack_length v, fun i hi => ?_⟩
  rw [pack_length] at hi
  rw [pack_getLsbD v hi]
  split
  · rfl
  · rw [List.getD_eq_default _ _ (by omega)]; rfl

theorem getD_map_range {α : Type} (f : Nat → α) (x : α) {i n : Nat} (h : i < n) : ((List.range n).map f).getD i x = f i := by
  simp [List.getD_eq_getElem?_getD, h]

/-- The packed cells of a range of a bit bank hold that range. -/
theorem packedBits_readCells (b : Bank 1) (addr n : Nat) :
    PackedBits (pack (b.readCells addr n)) n fun i => b.cell (addr + i) := by
  have h := packedBits_pack (b.readCells addr n)
  rw [Bank.readCells_length] at h
  exact h.congr fun i hi => getD_map_range _ _ hi

/-- Settles O14: bit `i` of the packed bytes is cell `i`, and reading each bit back gives the cells. -/
theorem packedBitOrder : Obligations.PackedBitOrder := by
  intro v
  refine ⟨packedBits_pack v, List.ext_getElem (unpack_length _ _) fun i h1 h2 => ?_⟩
  rw [unpack_length] at h1
  have hbit : packedBit (pack v) i = v.getD i 0 :=
    bit_ext (by rw [packedBit_getLsbD, pack_getLsbD v (by simp only [ceil8]; omega)])
  simp only [unpack, List.getElem_map, List.getElem_range, hbit, List.getD_eq_getElem _ _ h1]

theorem packedBit_eq_ofBool (p : List U8) (i : Nat) :
    packedBit p i = BitVec.ofBool ((p.getD (i / 8) 0).getLsbD (i % 8)) :=
  bit_ext (by rw [packedBit_getLsbD]; simp)

/-! ### Words on the wire -/

theorem wordBytes_readCells (b : Bank 16) (addr n : Nat) : wordBytes (b.readCells addr n) = wordsOnWire b addr n := by
  rw [wordBytes_eq, Bank.readCells, List.flatMap_map]
  rfl

/-- The words of a payload, written out again, are the payload's bytes. -/
theorem flatMap_payloadWord {p : List U8} {n : Nat} (h : 2 * n ≤ p.length) :
    (List.range n).flatMap (fun i => bytes16 (payloadWord p i)) = p.take (2 * n) := by
  induction n with
  | zero => rfl
  | succ n ih =>
    have h0 : 2 * n < p.length := by omega
    have h1 : 2 * n + 1 < p.length := by omega
    rw [List.range_succ, List.flatMap_append, ih (by omega), Nat.mul_succ, List.take_succ_eq_append_getElem h1,
      List.take_succ_eq_append_getElem h0]
    simp only [List.flatMap_singleton, payloadWord, bytes16_be16, List.getD_eq_getElem _ _ h0, List.getD_eq_getElem _ _ h1,
      List.append_assoc, List.singleton_append]

/-! ### Written ranges -/

section Written

variable {w : Nat}

theorem WrittenRange.cap_eq {b c : Bank w} {addr n : Nat} {f : Nat → BitVec w} (h : WrittenRange b c addr n f) :
    c.cap = b.cap := h.1

theorem WrittenRange.congr {b c : Bank w} {addr n : Nat} {f g : Nat → BitVec w} (h : WrittenRange b c addr n f)
    (hfg : ∀ i, i < n → f i = g i) : WrittenRange b c addr n g := by
  obtain ⟨hcap, hwf, hcell⟩ := h
  refine ⟨hcap, hwf, fun a => ?_⟩
  rw [hcell a]
  split
  · rename_i ha
    exact hfg _ (by omega)
  · rfl

/-- A cell inside a written range. -/
theorem WrittenRange.cell_inside {b c : Bank w} {addr n i : Nat} {f : Nat → BitVec w} (h : WrittenRange b c addr n f)
    (hi : i < n) : c.cell (addr + i) = f i := by
  obtain ⟨_, _, hcell⟩ := h
  rw [hcell, if_pos (by omega), Nat.add_sub_cancel_left]

/-- Writing a list that is the first `n` values of a function is the write of those values. -/
theorem Bank.writeCells_map_range {b : Bank w} (h : b.wf = true) {addr n : Nat} (f : Nat → BitVec w)
    (hr : addr + n ≤ b.cap) : WrittenRange b (b.writeCells addr ((List.range n).map f)) addr n f := by
  have hw := Bank.writeCells_writtenRange h (vs := (List.range n).map f) (addr := addr)
  rw [List.length_map, List.length_range] at hw
  exact (hw hr).congr fun i hi => getD_map_range f 0#w hi

/-- Writing the same values again changes nothing: each cell of the range already holds its value. -/
theorem Bank.writeCells_writeCells {b : Bank w} (h : b.wf = true) {addr : Nat} {vs : List (BitVec w)}
    (hr : addr + vs.length ≤ b.cap) : (b.writeCells addr vs).writeCells addr vs = b.writeCells addr vs := by
  have hc := Bank.writeCells_wf h hr
  have hr' : addr + vs.length ≤ (b.writeCells addr vs).cap := by rwa [Bank.writeCells_cap]
  refine Bank.ext_cells (Bank.writeCells_wf hc hr') hc (Bank.writeCells_cap _ _ _) fun a => ?_
  rw [Bank.writeCells_cell hc hr', Bank.writeCells_cell h hr]
  split <;> rfl

theorem Bank.set_set {b c : Bank w} (h : b.wf = true) {addr : Int} {vs : List (BitVec w)} (hset : b.set addr vs = some c) :
    c.set addr vs = some c := by
  obtain ⟨h0, hr, rfl⟩ := Bank.set_eq_some hset
  rw [Bank.set_eq_ite, Bank.writeCells_cap, if_pos (by omega), Bank.writeCells_writeCells h hr]

end Written

end Sys2Proof.Machine
end

section
/-! PROOFS. What each handler answers, one equation per check of its algorithm (42_read_functions.md R79, 43_write_functions.md
R85-R88). -/

namespace Sys2Proof.Machine

/-! ### Success responses -/

/-- A frame as the block builds it, in the bytes of 30_encoding.md R43. -/
theorem encodeFrame_mkFrame (t : Tag) (fc : U8) (data : List U8) : encodeFrame (mkFrame t fc data) = adu t fc data := by
  have hpid : bytes16 0 = [0x00, 0x00] := by decide
  simp only [encodeFrame, mkFrame, hpid]
  rfl

theorem reply_mkFrame {s : State} (h : s.active < s.engines.length) (t : Tag) (fc : U8) (data : List U8) :
    reply s (mkFrame t fc data) = .next (s.send (adu t fc data)) := by
  rw [reply_next h, encodeFrame_mkFrame]

theorem deriveResponse_some (t : Tag) (fc : U8) (d data : List U8) :
    deriveResponse (mkFrame t fc d) (some data) = mkFrame t fc data := rfl

theorem deriveResponse_none (t : Tag) (fc : U8) (d : List U8) : deriveResponse (mkFrame t fc d) none = mkFrame t fc d := rfl

theorem countOk_iff {maxCount : Nat} {count : U16} :
    countOk maxCount count = true ↔ 1 ≤ count.toNat ∧ count.toNat ≤ maxCount := by
  simp only [countOk, Bool.and_eq_true, decide_eq_true_eq]

section Handlers

variable {s : State} (h : s.active < s.engines.length) (t : Tag)
include h

/-! ### The read algorithm (R79) -/

section Read

variable {w : Nat} (fc : U8) (d : List U8) (b : Bank w) (maxCount : Nat) (payload : List (BitVec w) → List U8)

theorem readHandler_misfit (data : List U8) : readHandler (mkFrame t fc d) (.misfit data) b maxCount payload s =
    .next (s.send (excAdu t (exceptionFunctionCode fc) 0x03)) :=
  takeException_mkFrame h t fc d .dataValue

theorem readHandler_badCount {addr count : U16} (hc : ¬(1 ≤ count.toNat ∧ count.toNat ≤ maxCount)) :
    readHandler (mkFrame t fc d) (.fields addr count) b maxCount payload s =
      .next (s.send (excAdu t (exceptionFunctionCode fc) 0x03)) := by
  simp only [readHandler, countOk_iff, hc, if_false]
  exact takeException_mkFrame h t fc d .dataValue

theorem readHandler_badAddress {addr count : U16} (hc : 1 ≤ count.toNat ∧ count.toNat ≤ maxCount)
    (hr : b.cap < addr.toNat + count.toNat) :
    readHandler (mkFrame t fc d) (.fields addr count) b maxCount payload s =
      .next (s.send (excAdu t (exceptionFunctionCode fc) 0x02)) := by
  simp only [readHandler, countOk_iff, hc, and_self, if_true, Bank.get_nat, Nat.not_le.2 hr, if_false]
  exact takeException_mkFrame h t fc d .dataAddress

theorem readHandler_success {addr count : U16} (hc : 1 ≤ count.toNat ∧ count.toNat ≤ maxCount)
    (hr : addr.toNat + count.toNat ≤ b.cap) :
    readHandler (mkFrame t fc d) (.fields addr count) b maxCount payload s =
      .next (s.send (adu t fc (countedPayload (payload (b.readCells addr.toNat count.toNat))))) := by
  simp only [readHandler, countOk_iff, hc, and_self, if_true, Bank.get_nat, hr, deriveResponse_some, reply_mkFrame h]

end Read

/-! ### The single writes (R85, R86) -/

theorem execWriteSingleCoil_misfit (d : List U8) :
    execWriteSingleCoil t (.misfit d) s = .next (s.send (excAdu t 0x85 0x03)) :=
  takeException_mkFrame h t _ _ .dataValue

theorem execWriteSingleCoil_badValue {addr value : U16} (hv : coilValue value = none) :
    execWriteSingleCoil t (.fields addr value) s = .next (s.send (excAdu t 0x85 0x03)) := by
  simp only [execWriteSingleCoil, hv]
  exact takeException_mkFrame h t _ _ .dataValue

theorem execWriteSingleCoil_badAddress {addr value : U16} {v : Bit} (hv : coilValue value = some v)
    (hr : s.store.co.cap ≤ addr.toNat) :
    execWriteSingleCoil t (.fields addr value) s = .next (s.send (excAdu t 0x85 0x02)) := by
  simp only [execWriteSingleCoil, hv, Bank.set_nat, List.length_singleton, Nat.not_le.2 (Nat.lt_succ_of_le hr), if_false]
  exact takeException_mkFrame h t _ _ .dataAddress

theorem execWriteSingleCoil_success {addr value : U16} {v : Bit} (hv : coilValue value = some v)
    (hr : addr.toNat < s.store.co.cap) :
    execWriteSingleCoil t (.fields addr value) s =
      .next ((s.withCo (s.store.co.writeCells addr.toNat [v])).send (adu t 0x05 (bytes16 addr ++ bytes16 value))) := by
  simp only [execWriteSingleCoil, hv, Bank.set_nat, List.length_singleton, Nat.succ_le_of_lt hr, if_true,
    deriveResponse_none]
  exact reply_mkFrame (by exact h) _ _ _

theorem execWriteSingleRegister_misfit (d : List U8) :
    execWriteSingleRegister t (.misfit d) s = .next (s.send (excAdu t 0x86 0x03)) :=
  takeException_mkFrame h t _ _ .dataValue

theorem execWriteSingleRegister_badAddress {addr value : U16} (hr : s.store.hr.cap ≤ addr.toNat) :
    execWriteSingleRegister t (.fields addr value) s = .next (s.send (excAdu t 0x86 0x02)) := by
  simp only [execWriteSingleRegister, Bank.set_nat, List.length_singleton, Nat.not_le.2 (Nat.lt_succ_of_le hr), if_false]
  exact takeException_mkFrame h t _ _ .dataAddress

theorem execWriteSingleRegister_success {addr value : U16} (hr : addr.toNat < s.store.hr.cap) :
    execWriteSingleRegister t (.fields addr value) s =
      .next ((s.withHr (s.store.hr.writeCells addr.toNat [value])).send (adu t 0x06 (bytes16 addr ++ bytes16 value))) := by
  simp only [execWriteSingleRegister, Bank.set_nat, List.length_singleton, Nat.succ_le_of_lt hr, if_true,
    deriveResponse_none]
  exact reply_mkFrame (by exact h) _ _ _

/-! ### The multiple writes (R87, R88) -/

theorem execWriteMultipleCoils_misfit (d : List U8) :
    execWriteMultipleCoils t (.misfit d) s = .next (s.send (excAdu t 0x8F 0x03)) :=
  takeException_mkFrame h t _ _ .dataValue

theorem execWriteMultipleRegisters_misfit (d : List U8) :
    execWriteMultipleRegisters t (.misfit d) s = .next (s.send (excAdu t 0x90 0x03)) :=
  takeException_mkFrame h t _ _ .dataValue

end Handlers

/-- The DATA_VALUE checks that a multiple write of coils passes (R87). -/
def CoilsFit (count : U16) (bc : U8) (payload : List U8) : Prop :=
  (1 ≤ count.toNat ∧ count.toNat ≤ 1968) ∧ bc.toNat = ceil8 count.toNat ∧ payload.length = bc.toNat

/-- The DATA_VALUE checks that a multiple write of registers passes (R88). -/
def RegistersFit (count : U16) (bc : U8) (payload : List U8) : Prop :=
  (1 ≤ count.toNat ∧ count.toNat ≤ 123) ∧ bc.toNat = 2 * count.toNat ∧ payload.length = bc.toNat

theorem coilsFit_iff {count : U16} {bc : U8} {payload : List U8} :
    (countOk maxWriteBits count && decide (bc.toNat = ceil8 count.toNat) && decide (payload.length = bc.toNat)) = true ↔
      CoilsFit count bc payload := by
  simp only [Bool.and_eq_true, countOk_iff, decide_eq_true_eq, CoilsFit, and_assoc]

theorem registersFit_iff {count : U16} {bc : U8} {payload : List U8} :
    (countOk maxWriteWords count && decide (bc.toNat = 2 * count.toNat) && decide (payload.length = bc.toNat)) = true ↔
      RegistersFit count bc payload := by
  simp only [Bool.and_eq_true, countOk_iff, decide_eq_true_eq, RegistersFit, and_assoc]

section Handlers

variable {s : State} (h : s.active < s.engines.length) (t : Tag) {addr count : U16} {bc : U8} {payload : List U8}
include h

theorem execWriteMultipleCoils_badValue (hf : ¬CoilsFit count bc payload) :
    execWriteMultipleCoils t (.fields addr count bc payload) s = .next (s.send (excAdu t 0x8F 0x03)) := by
  simp only [execWriteMultipleCoils, coilsFit_iff, hf, if_false]
  exact takeException_mkFrame h t _ _ .dataValue

theorem execWriteMultipleCoils_badAddress (hf : CoilsFit count bc payload)
    (hr : s.store.co.cap < addr.toNat + count.toNat) :
    execWriteMultipleCoils t (.fields addr count bc payload) s = .next (s.send (excAdu t 0x8F 0x02)) := by
  simp only [execWriteMultipleCoils, coilsFit_iff, hf, if_true, Bank.set_nat, unpack_length, Nat.not_le.2 hr, if_false]
  exact takeException_mkFrame h t _ _ .dataAddress

theorem execWriteMultipleCoils_success (hf : CoilsFit count bc payload)
    (hr : addr.toNat + count.toNat ≤ s.store.co.cap) :
    execWriteMultipleCoils t (.fields addr count bc payload) s =
      .next ((s.withCo (s.store.co.writeCells addr.toNat (unpack payload count.toNat))).send
        (adu t 0x0F (bytes16 addr ++ bytes16 count))) := by
  simp only [execWriteMultipleCoils, coilsFit_iff, hf, if_true, Bank.set_nat, unpack_length, hr, deriveResponse_some]
  exact reply_mkFrame (by exact h) _ _ _

theorem execWriteMultipleRegisters_badValue (hf : ¬RegistersFit count bc payload) :
    execWriteMultipleRegisters t (.fields addr count bc payload) s = .next (s.send (excAdu t 0x90 0x03)) := by
  simp only [execWriteMultipleRegisters, registersFit_iff, hf, if_false]
  exact takeException_mkFrame h t _ _ .dataValue

theorem execWriteMultipleRegisters_badAddress (hf : RegistersFit count bc payload)
    (hr : s.store.hr.cap < addr.toNat + count.toNat) :
    execWriteMultipleRegisters t (.fields addr count bc payload) s = .next (s.send (excAdu t 0x90 0x02)) := by
  simp only [execWriteMultipleRegisters, registersFit_iff, hf, if_true, Bank.set_nat, payloadWords_length,
    Nat.not_le.2 hr, if_false]
  exact takeException_mkFrame h t _ _ .dataAddress

theorem execWriteMultipleRegisters_success (hf : RegistersFit count bc payload)
    (hr : addr.toNat + count.toNat ≤ s.store.hr.cap) :
    execWriteMultipleRegisters t (.fields addr count bc payload) s =
      .next ((s.withHr (s.store.hr.writeCells addr.toNat (payloadWords payload count.toNat))).send
        (adu t 0x10 (bytes16 addr ++ bytes16 count))) := by
  simp only [execWriteMultipleRegisters, registersFit_iff, hf, if_true, Bank.set_nat, payloadWords_length, hr,
    deriveResponse_some]
  exact reply_mkFrame (by exact h) _ _ _

end Handlers

/-! ### Obligations: the read functions -/

/-- Settles O17: both requests are R79's algorithm, whose payload holds the cells of the range. -/
theorem readBitsAnswer : Obligations.ReadBitsAnswer := by
  intro s t addr count h h1 h2
  refine ⟨fun hr => ?_, fun hr => ?_⟩
  · exact ⟨_, packedBits_readCells _ _ _, readHandler_success h t 0x01 _ _ maxReadBits pack ⟨h1, h2⟩ hr⟩
  · exact ⟨_, packedBits_readCells _ _ _, readHandler_success h t 0x02 _ _ maxReadBits pack ⟨h1, h2⟩ hr⟩

/-- R79 on words in range: the byte count is twice the count, and the words are those on the wire. -/
theorem readHandler_words {s : State} (h : s.active < s.engines.length) (t : Tag) (fc : U8) (d : List U8) (b : Bank 16)
    {addr count : U16} (hc : 1 ≤ count.toNat ∧ count.toNat ≤ maxReadWords) (hr : addr.toNat + count.toNat ≤ b.cap) :
    readHandler (mkFrame t fc d) (.fields addr count) b maxReadWords wordBytes s =
      .next (s.send (adu t fc (BitVec.ofNat 8 (2 * count.toNat) :: wordsOnWire b addr.toNat count.toNat))) := by
  rw [readHandler_success h t fc d b _ _ hc hr, countedPayload, wordBytes_length, Bank.readCells_length,
    wordBytes_readCells]

/-- Settles O18: both requests are R79's algorithm on words. -/
theorem readWordsAnswer : Obligations.ReadWordsAnswer := by
  intro s t addr count h h1 h2
  exact ⟨readHandler_words h t 0x03 _ _ ⟨h1, h2⟩, readHandler_words h t 0x04 _ _ ⟨h1, h2⟩⟩

/-- Settles O19: R79's algorithm with the first check that fails. -/
theorem readsRefuse : Obligations.ReadsRefuse := by
  intro s t h
  refine ⟨fun d => ⟨?_, ?_, ?_, ?_⟩, fun addr count => ⟨fun hc => ?_, fun hc => ?_,
    fun hc => ⟨fun hr => ?_, fun hr => ?_⟩, fun hc => ⟨fun hr => ?_, fun hr => ?_⟩⟩⟩
  · exact readHandler_misfit h t 0x01 _ s.store.co maxReadBits pack d
  · exact readHandler_misfit h t 0x02 _ s.store.di maxReadBits pack d
  · exact readHandler_misfit h t 0x03 _ s.store.hr maxReadWords wordBytes d
  · exact readHandler_misfit h t 0x04 _ s.store.ir maxReadWords wordBytes d
  · have hbad : ¬(1 ≤ count.toNat ∧ count.toNat ≤ 2000) := by omega
    exact ⟨readHandler_badCount h t 0x01 _ _ maxReadBits _ hbad, readHandler_badCount h t 0x02 _ _ maxReadBits _ hbad⟩
  · have hbad : ¬(1 ≤ count.toNat ∧ count.toNat ≤ 125) := by omega
    exact ⟨readHandler_badCount h t 0x03 _ _ maxReadWords _ hbad, readHandler_badCount h t 0x04 _ _ maxReadWords _ hbad⟩
  · exact readHandler_badAddress h t 0x01 _ _ maxReadBits _ hc hr
  · exact readHandler_badAddress h t 0x02 _ _ maxReadBits _ hc hr
  · exact readHandler_badAddress h t 0x03 _ _ maxReadWords _ hc hr
  · exact readHandler_badAddress h t 0x04 _ _ maxReadWords _ hc hr

/-! ### Obligations: the write functions -/

theorem coilValue_eq_none {value : U16} : coilValue value = none ↔ value ≠ 0xFF00 ∧ value ≠ 0x0000 := by
  unfold coilValue
  split
  · simp_all
  · split <;> simp_all

/-- The range of one cell, as a single write writes it. -/
theorem Bank.writeCells_one {w : Nat} {b : Bank w} (h : b.wf = true) {addr : Nat} (hr : addr < b.cap) (v : BitVec w) :
    WrittenRange b (b.writeCells addr [v]) addr 1 fun _ => v :=
  Bank.writeCells_map_range h (n := 1) (fun _ => v) hr

/-- Settles O20: the two values of R85 are the coil's 1 and 0; the request's data is echoed. -/
theorem writeSingleCoilAnswers : Obligations.WriteSingleCoilAnswers := by
  intro s t addr h hwf hr
  exact ⟨⟨_, Bank.writeCells_one hwf hr 1, execWriteSingleCoil_success h t (value := 0xFF00) (v := 1) rfl hr⟩,
    ⟨_, Bank.writeCells_one hwf hr 0, execWriteSingleCoil_success h t (value := 0x0000) (v := 0) rfl hr⟩⟩

/-- Settles O21: every value of a register is legal; the request's data is echoed. -/
theorem writeSingleRegisterAnswers : Obligations.WriteSingleRegisterAnswers := by
  intro s t addr value h hwf hr
  exact ⟨_, Bank.writeCells_one hwf hr value, execWriteSingleRegister_success h t hr⟩

/-- Settles O22: R85 and R86 with the first check that fails. -/
theorem singleWritesRefuse : Obligations.SingleWritesRefuse := by
  intro s t h
  refine ⟨fun d => ⟨execWriteSingleCoil_misfit h t d, execWriteSingleRegister_misfit h t d⟩, fun addr value =>
    ⟨fun hv => execWriteSingleCoil_badValue h t (coilValue_eq_none.2 hv), fun hr => ?_,
      execWriteSingleRegister_badAddress h t⟩⟩
  obtain ⟨hcap, rfl | rfl⟩ := hr
  · exact execWriteSingleCoil_badAddress h t (value := 0xFF00) (v := 1) rfl hcap
  · exact execWriteSingleCoil_badAddress h t (value := 0x0000) (v := 0) rfl hcap

/-- The coils that a payload's bits write. -/
theorem Bank.writeCells_unpack {b : Bank 1} (h : b.wf = true) {addr n : Nat} (payload : List U8) (hr : addr + n ≤ b.cap) :
    WrittenRange b (b.writeCells addr (unpack payload n)) addr n
      fun i => BitVec.ofBool ((payload.getD (i / 8) 0).getLsbD (i % 8)) :=
  (Bank.writeCells_map_range h (packedBit payload) hr).congr fun i _ => packedBit_eq_ofBool payload i

/-- Settles O23: R87 with every check passed, on the bits of the payload. -/
theorem writeMultipleCoilsAnswers : Obligations.WriteMultipleCoilsAnswers := by
  intro s t addr count bc payload h hwf h1 h2 hbc hlen hr
  exact ⟨_, Bank.writeCells_unpack hwf payload hr, execWriteMultipleCoils_success h t ⟨⟨h1, h2⟩, hbc, hlen⟩ hr⟩

/-- Settles O24: R88 with every check passed, on the words of the payload. -/
theorem writeMultipleRegistersAnswers : Obligations.WriteMultipleRegistersAnswers := by
  intro s t addr count bc payload h hwf h1 h2 hbc hlen hr
  exact ⟨_, Bank.writeCells_map_range hwf (payloadWord payload) hr,
    execWriteMultipleRegisters_success h t ⟨⟨h1, h2⟩, hbc, hlen⟩ hr⟩

/-- Settles O25: R87 and R88 with the first check that fails. -/
theorem multipleWritesRefuse : Obligations.MultipleWritesRefuse := by
  intro s t h
  refine ⟨fun d => ⟨execWriteMultipleCoils_misfit h t d, execWriteMultipleRegisters_misfit h t d⟩,
    fun addr count bc payload => ⟨fun hbad => ?_, fun hbad => ?_, fun hgood => ?_, fun hgood => ?_⟩⟩
  · exact execWriteMultipleCoils_badValue h t (by unfold CoilsFit ceil8; omega)
  · exact execWriteMultipleRegisters_badValue h t (by unfold RegistersFit; omega)
  · obtain ⟨h1, h2, hbc, hlen, hr⟩ := hgood
    exact execWriteMultipleCoils_badAddress h t ⟨⟨h1, h2⟩, hbc, hlen⟩ hr
  · obtain ⟨h1, h2, hbc, hlen, hr⟩ := hgood
    exact execWriteMultipleRegisters_badAddress h t ⟨⟨h1, h2⟩, hbc, hlen⟩ hr

/-- A range written with the words of a payload, on the wire again. -/
theorem WrittenRange.wordsOnWire_eq {b c : Bank 16} {addr n : Nat} {payload : List U8} (h : WrittenRange b c addr n
    fun i => be16 (payload.getD (2 * i) 0) (payload.getD (2 * i + 1) 0)) (hlen : payload.length = 2 * n) :
    wordsOnWire c addr n = payload := by
  have hwords : wordsOnWire c addr n = (List.range n).flatMap fun i => bytes16 (payloadWord payload i) := by
    refine List.flatMap_congr fun i hi => ?_
    rw [h.cell_inside (List.mem_range.1 hi)]
    rfl
  rw [hwords, flatMap_payloadWord (by omega), ← hlen, List.take_length]

/-- Settles O26: the read's words are the cells of the written range, so the payload's bytes. -/
theorem writtenRegistersReadBack : Obligations.WrittenRegistersReadBack := by
  intro s t u addr count bc payload h hwf h1 h2 hbc hlen hr
  obtain ⟨c, hc, hexec⟩ := writeMultipleRegistersAnswers s t addr count bc payload h hwf h1 h2 hbc hlen hr
  refine ⟨_, hexec, ?_⟩
  rw [(readWordsAnswer _ u addr count (by simpa using h) h1 (by omega)).1 (by simpa only [State.send_store,
    State.withHr_store, hc.cap_eq] using hr)]
  simp only [State.send_store, State.withHr_store]
  rw [hc.wordsOnWire_eq (hlen.trans hbc), ← hbc, BitVec.ofNat_toNat, BitVec.setWidth_eq]

/-- Settles O27: the read's payload packs the cells of the written range, so the payload's bits. -/
theorem writtenCoilsReadBack : Obligations.WrittenCoilsReadBack := by
  intro s t u addr count bc payload h hwf h1 h2 hbc hlen hr
  obtain ⟨c, hc, hexec⟩ := writeMultipleCoilsAnswers s t addr count bc payload h hwf h1 h2 hbc hlen hr
  obtain ⟨p, hp, hread⟩ := (readBitsAnswer ((s.withCo c).send _) u addr count (by simpa using h) h1 (by omega)).1
    (by simpa only [State.send_store, State.withCo_store, hc.cap_eq] using hr)
  refine ⟨_, p, hexec, hp.congr fun i hi => hc.cell_inside hi, ?_⟩
  rw [hread, hp.length_eq, ← hbc, BitVec.ofNat_toNat, BitVec.setWidth_eq]

end Sys2Proof.Machine
end

section
/-! PROOFS. Responses in general (41_engine.md R75, 60_exceptions.md R93, R97): what a request answers is a function of its
operands and of the store. -/

namespace Sys2Proof.Machine

/-! ### What a request answers, whatever its tag and the rest of the state -/

/-- With the store `d`, the request `i` makes the store `d'` and answers with the code `fc` and `data`, under every tag and in
every state that has this store and an active slot. -/
def Serves (i : Instr) (d d' : DataStore) (fc : U8) (data : List U8) : Prop :=
  ∀ (u : Tag) (s : State), s.store = d → s.active < s.engines.length →
    exec (i.withTag u) s = .next (({ s with store := d' } : State).send (adu u fc data))

/-- An exception response is a response with one data byte, the code byte (30_encoding.md R52). -/
theorem excAdu_eq_adu (t : Tag) (fc code : U8) : excAdu t fc code = adu t fc [code] := by
  simp [excAdu, adu]

/-- An answer that keeps the store, from a handler's equation for one store. -/
theorem Serves.of_send {i : Instr} {d : DataStore} {fc : U8} {data : List U8}
    (h : ∀ (u : Tag) (s : State), s.store = d → s.active < s.engines.length →
      exec (i.withTag u) s = .next (s.send (adu u fc data))) : Serves i d d fc data := by
  rintro u s rfl hs
  exact h u s rfl hs

/-- An exception, from a handler's equation for one store. -/
theorem Serves.of_exception {i : Instr} {d : DataStore} {fc code : U8}
    (h : ∀ (u : Tag) (s : State), s.store = d → s.active < s.engines.length →
      exec (i.withTag u) s = .next (s.send (excAdu u fc code))) : Serves i d d fc [code] :=
  .of_send fun u s hd hs => by rw [h u s hd hs, excAdu_eq_adu]

/-- R79's algorithm answers alike under every tag and in every state: the bank is its only operand from the state. -/
theorem readHandler_serves {w : Nat} (fc : U8) (ops : RangeOps) (b : Bank w) (maxCount : Nat)
    (payload : List (BitVec w) → List U8) : ∃ fc' data, ∀ (u : Tag) (s : State), s.active < s.engines.length →
      readHandler (mkFrame u fc ops.data) ops b maxCount payload s = .next (s.send (adu u fc' data)) := by
  cases ops with
  | misfit d => exact ⟨exceptionFunctionCode fc, [0x03], fun u s hs => by rw [readHandler_misfit hs, excAdu_eq_adu]⟩
  | fields addr count =>
    by_cases hc : 1 ≤ count.toNat ∧ count.toNat ≤ maxCount
    · by_cases hr : addr.toNat + count.toNat ≤ b.cap
      · exact ⟨_, _, fun u s hs => readHandler_success hs u fc _ b maxCount payload hc hr⟩
      · exact ⟨exceptionFunctionCode fc, [0x02], fun u s hs => by
          rw [readHandler_badAddress hs u fc _ b maxCount payload hc (Nat.lt_of_not_le hr), excAdu_eq_adu]⟩
    · exact ⟨exceptionFunctionCode fc, [0x03], fun u s hs => by
        rw [readHandler_badCount hs u fc _ b maxCount payload hc, excAdu_eq_adu]⟩

/-- A read request serves the store it reads. -/
theorem exists_serves_of_read {w : Nat} {i : Instr} {fc : U8} {ops : RangeOps} {maxCount : Nat}
    {payload : List (BitVec w) → List U8} (bank : DataStore → Bank w)
    (hexec : ∀ (u : Tag) (s : State),
      exec (i.withTag u) s = readHandler (mkFrame u fc ops.data) ops (bank s.store) maxCount payload s) (d : DataStore) :
    ∃ fc' data, Serves i d d fc' data := by
  obtain ⟨fc', data, h⟩ := readHandler_serves fc ops (bank d) maxCount payload
  exact ⟨fc', data, .of_send fun u s hd hs => by rw [hexec, hd, h u s hs]⟩

theorem exists_serves_writeSingleCoil (t : Tag) (ops : SingleOps) (d : DataStore) :
    ∃ d' fc data, Serves (.writeSingleCoil t ops) d d' fc data := by
  cases ops with
  | misfit x => exact ⟨d, _, _, .of_exception fun u s _ hs => execWriteSingleCoil_misfit hs u x⟩
  | fields addr value =>
    cases hv : coilValue value with
    | none => exact ⟨d, _, _, .of_exception fun u s _ hs => execWriteSingleCoil_badValue hs u hv⟩
    | some v =>
      by_cases hr : addr.toNat < d.co.cap
      · refine ⟨{ d with co := d.co.writeCells addr.toNat [v] }, 0x05, bytes16 addr ++ bytes16 value, ?_⟩
        rintro u s rfl hs
        exact execWriteSingleCoil_success hs u hv hr
      · exact ⟨d, _, _, .of_exception fun u s hd hs => execWriteSingleCoil_badAddress hs u hv (by rw [hd]; omega)⟩

theorem exists_serves_writeSingleRegister (t : Tag) (ops : SingleOps) (d : DataStore) :
    ∃ d' fc data, Serves (.writeSingleRegister t ops) d d' fc data := by
  cases ops with
  | misfit x => exact ⟨d, _, _, .of_exception fun u s _ hs => execWriteSingleRegister_misfit hs u x⟩
  | fields addr value =>
    by_cases hr : addr.toNat < d.hr.cap
    · refine ⟨{ d with hr := d.hr.writeCells addr.toNat [value] }, 0x06, bytes16 addr ++ bytes16 value, ?_⟩
      rintro u s rfl hs
      exact execWriteSingleRegister_success hs u hr
    · exact ⟨d, _, _, .of_exception fun u s hd hs => execWriteSingleRegister_badAddress hs u (by rw [hd]; omega)⟩

theorem exists_serves_writeMultipleCoils (t : Tag) (ops : MultiOps) (d : DataStore) :
    ∃ d' fc data, Serves (.writeMultipleCoils t ops) d d' fc data := by
  cases ops with
  | misfit x => exact ⟨d, _, _, .of_exception fun u s _ hs => execWriteMultipleCoils_misfit hs u x⟩
  | fields addr count bc payload =>
    by_cases hf : CoilsFit count bc payload
    · by_cases hr : addr.toNat + count.toNat ≤ d.co.cap
      · refine ⟨{ d with co := d.co.writeCells addr.toNat (unpack payload count.toNat) }, 0x0F,
          bytes16 addr ++ bytes16 count, ?_⟩
        rintro u s rfl hs
        exact execWriteMultipleCoils_success hs u hf hr
      · exact ⟨d, _, _, .of_exception fun u s hd hs => execWriteMultipleCoils_badAddress hs u hf (by rw [hd]; omega)⟩
    · exact ⟨d, _, _, .of_exception fun u s _ hs => execWriteMultipleCoils_badValue hs u hf⟩

theorem exists_serves_writeMultipleRegisters (t : Tag) (ops : MultiOps) (d : DataStore) :
    ∃ d' fc data, Serves (.writeMultipleRegisters t ops) d d' fc data := by
  cases ops with
  | misfit x => exact ⟨d, _, _, .of_exception fun u s _ hs => execWriteMultipleRegisters_misfit hs u x⟩
  | fields addr count bc payload =>
    by_cases hf : RegistersFit count bc payload
    · by_cases hr : addr.toNat + count.toNat ≤ d.hr.cap
      · refine ⟨{ d with hr := d.hr.writeCells addr.toNat (payloadWords payload count.toNat) }, 0x10,
          bytes16 addr ++ bytes16 count, ?_⟩
        rintro u s rfl hs
        exact execWriteMultipleRegisters_success hs u hf hr
      · exact ⟨d, _, _, .of_exception fun u s hd hs => execWriteMultipleRegisters_badAddress hs u hf (by rw [hd]; omega)⟩
    · exact ⟨d, _, _, .of_exception fun u s _ hs => execWriteMultipleRegisters_badValue hs u hf⟩

/-- Every request has one answer for each store. -/
theorem exists_serves (i : Instr) (d : DataStore) : ∃ d' fc data, Serves i d d' fc data := by
  cases i with
  | readCoils t ops => exact ⟨d, exists_serves_of_read DataStore.co (fun _ _ => rfl) d⟩
  | readDiscreteInputs t ops => exact ⟨d, exists_serves_of_read DataStore.di (fun _ _ => rfl) d⟩
  | readHoldingRegisters t ops => exact ⟨d, exists_serves_of_read DataStore.hr (fun _ _ => rfl) d⟩
  | readInputRegisters t ops => exact ⟨d, exists_serves_of_read DataStore.ir (fun _ _ => rfl) d⟩
  | writeSingleCoil t ops => exact exists_serves_writeSingleCoil t ops d
  | writeSingleRegister t ops => exact exists_serves_writeSingleRegister t ops d
  | writeMultipleCoils t ops => exact exists_serves_writeMultipleCoils t ops d
  | writeMultipleRegisters t ops => exact exists_serves_writeMultipleRegisters t ops d
  | illegalFunction t fc x => exact ⟨d, _, _, .of_exception fun u s _ hs => illegalFunctionAnswers s u fc x hs⟩

theorem withTag_tag (i : Instr) : i.withTag i.tag = i := by
  cases i <;> rfl

/-- The answer of the request itself. -/
theorem Serves.exec_eq {i : Instr} {d' : DataStore} {fc : U8} {data : List U8} {s : State}
    (h : Serves i s.store d' fc data) (hs : s.active < s.engines.length) :
    exec i s = .next (({ s with store := d' } : State).send (adu i.tag fc data)) := by
  have := h i.tag s rfl hs
  rwa [withTag_tag] at this

/-- Settles O32: a request's answer is the same under every tag. -/
theorem tagSelectsNothing : Obligations.TagSelectsNothing := by
  intro i u s _ hs
  obtain ⟨d, fc, data, h⟩ := exists_serves i s.store
  exact ⟨fc, data, d, h.exec_eq hs, h u s rfl hs⟩

/-- Settles O33: a request's answer is the same in every state with the store. -/
theorem responseDependsOnStoreOnly : Obligations.ResponseDependsOnStoreOnly := by
  intro i s t hst hs ht
  obtain ⟨d, fc, data, h⟩ := exists_serves i s.store
  exact ⟨_, d, h.exec_eq hs, (hst ▸ h).exec_eq ht⟩

/-- Settles O29: the answer is one response sent to the active slot. -/
theorem everyRequestAnsweredOnce : Obligations.EveryRequestAnsweredOnce := by
  intro i s hs
  obtain ⟨d, fc, data, h⟩ := exists_serves i s.store
  exact ⟨_, d, h.exec_eq hs⟩

/-! ### Exceptions and success responses -/

/-- An instruction that ends in a next state ran on an existing slot. -/
theorem active_of_exec {i : Instr} {s t : State} (h : exec i s = .next t) : s.active < s.engines.length := by
  by_contra hs
  rw [exec_noSuchSlot hs] at h
  cases h

/-- The code byte of an exception that a request can raise is 1, 2 or 3 (30_encoding.md R57). -/
theorem exceptionByte_mem {c : ExceptionCode} (hc : c = .illegalFunction ∨ c = .dataAddress ∨ c = .dataValue) :
    exceptionByte c ∈ [(0x01 : U8), 0x02, 0x03] := by
  rcases hc with rfl | rfl | rfl <;> decide

/-- The response to a request, in the bytes of the wire: an exception with the state as it was, or a success response of at most
251 data bytes. -/
theorem exec_response {i : Instr} {s t : State} (h : exec i s = .next t) :
    (∃ c ∈ [(0x01 : U8), 0x02, 0x03], t = s.send (excAdu i.tag (i.toFrame.functionCode ||| 0x80) c)) ∨
    (supported i.toFrame.functionCode = true ∧ ∃ d data, data.length ≤ 251 ∧
      t = ({ s with store := d } : State).send (adu i.tag i.toFrame.functionCode data)) := by
  have hs := active_of_exec h
  have hframe := toFrame_eq_mkFrame i
  rcases exec_answers i s with ⟨c, hc, hx⟩ | ⟨hsup, d, data, _, hlen, hx⟩
  · refine .inl ⟨exceptionByte c, exceptionByte_mem hc, ?_⟩
    have hx' := takeException_mkFrame hs i.tag i.toFrame.functionCode i.toFrame.data c
    rw [← hframe, takeException, ← hx, h] at hx'
    exact Host.Outcome.next.inj hx'
  · refine .inr ⟨hsup, d, data, hlen, ?_⟩
    have hx' := reply_mkFrame (s := { s with store := d }) hs i.tag i.toFrame.functionCode data
    rw [← deriveResponse_some _ _ i.toFrame.data, ← hframe, ← hx, h] at hx'
    exact Host.Outcome.next.inj hx'

/-- The eight supported codes have bit 7 clear (30_encoding.md R56). -/
theorem bit7_of_supported {fc : U8} (h : supported fc = true) : fc.getLsbD 7 = false := by
  have hall : ∀ c ∈ [(0x01 : U8), 0x02, 0x03, 0x04, 0x05, 0x06, 0x0F, 0x10], c.getLsbD 7 = false := by decide
  exact hall fc (of_decide_eq_true h)

/-- Settles O30: the response's two forms, and bit 7 of a supported code. -/
theorem responseIsExceptionOrSuccess : Obligations.ResponseIsExceptionOrSuccess := by
  intro i s t _ h
  rcases exec_response h with hexc | ⟨hsup, d, data, _, rfl⟩
  · exact .inl hexc
  · exact .inr ⟨hsup, bit7_of_supported hsup, data, rfl⟩

/-- A response with at most 258 data bytes is one whole structurally valid frame. -/
theorem decodeFrame_adu (t : Tag) (fc : U8) {data : List U8} (h : data.length ≤ maxData) :
    decodeFrame (adu t fc data) = some (mkFrame t fc data, []) := by
  obtain ⟨_, _, _, hdata⟩ := (Frame.isValid_iff _).1 (mkFrame_isValid t fc h)
  rw [← encodeFrame_mkFrame, ← List.append_nil (encodeFrame _), decodeFrame_encodeFrame hdata]

/-- What an instruction sends has at most 258 data bytes, and the request's own tag. -/
theorem exec_sends {i : Instr} {s t : State} (h : exec i s = .next t) :
    ∃ d fc data, data.length ≤ maxData ∧ t = ({ s with store := d } : State).send (adu i.tag fc data) := by
  rcases exec_response h with ⟨c, _, rfl⟩ | ⟨_, d, data, hlen, rfl⟩
  · exact ⟨s.store, _, [c], by simp [maxData], congrArg s.send (excAdu_eq_adu _ _ c)⟩
  · exact ⟨d, _, data, by simp only [maxData]; omega, rfl⟩

/-- Settles O31: the one frame sent is built with the request's tag and decodes back. -/
theorem responseIsValidFrame : Obligations.ResponseIsValidFrame := by
  intro i s t e e' _ h he he'
  obtain ⟨d, fc, data, hlen, rfl⟩ := exec_sends h
  rw [State.send_engines, modify_eq_set _ _ _ _ he, List.getElem?_set_self (active_of_exec h)] at he'
  obtain rfl := Option.some.inj he'
  exact ⟨_, mkFrame i.tag fc data, rfl, decodeFrame_adu _ _ hlen, mkFrame_isValid _ _ hlen, rfl, rfl⟩

/-! ### Reads are pure -/

/-- A read request leaves the store as it was: its answer keeps the store it reads. -/
theorem exec_store_of_read {w : Nat} {i : Instr} {fc : U8} {ops : RangeOps} {maxCount : Nat}
    {payload : List (BitVec w) → List U8} (bank : DataStore → Bank w)
    (hexec : ∀ (u : Tag) (s : State),
      exec (i.withTag u) s = readHandler (mkFrame u fc ops.data) ops (bank s.store) maxCount payload s)
    {s t : State} (h : exec i s = .next t) : t.store = s.store := by
  obtain ⟨fc', data, hserve⟩ := exists_serves_of_read bank hexec s.store
  rw [hserve.exec_eq (active_of_exec h)] at h
  cases h
  rfl

/-- Settles O13: a read's answer keeps the store, and a second write of the same values finds every cell as it leaves it. -/
theorem readsPureWritesIdempotent : Obligations.ReadsPureWritesIdempotent := by
  refine ⟨fun s t tag ops h => ?_, fun w b c addr vs hb hset => Bank.set_set hb hset⟩
  rcases h with h | h | h | h
  · exact exec_store_of_read DataStore.co (fun _ _ => rfl) h
  · exact exec_store_of_read DataStore.di (fun _ _ => rfl) h
  · exact exec_store_of_read DataStore.hr (fun _ _ => rfl) h
  · exact exec_store_of_read DataStore.ir (fun _ _ => rfl) h

end Sys2Proof.Machine
end

section
/-! PROOFS. Whole `process()` calls (41_engine.md §2-§4): the drain loop as a relation, its run on the machine, and the laws of
chunks and of pipelined requests. -/

namespace Sys2Proof.Machine

/-! ### The turn that answers a request -/

/-- The state after engine `k`, in the state `e`, has answered a request with `bytes`: `rest` is left in its buffer, and the store
is `d`. -/
def State.answered (s : State) (k : Nat) (e : Engine) (rest : List U8) (d : DataStore) (bytes : List U8) : State :=
  { s with
    store := d, active := k, engines := s.engines.set k { e with rbuf := rest, out := e.out ++ [.frame bytes] } }

theorem engineTurn_answered {s : State} {k : Nat} {e : Engine} {i : Instr} {rest : List U8} {d : DataStore} {fc : U8}
    {data : List U8} (he : s.engines[k]? = some e) (hp : e.phase = .drain) (hd : decode e.rbuf = .request i rest)
    (hserve : Serves i s.store d fc data) : engineTurn k s = .next (s.answered k e rest d (adu i.tag fc data)) := by
  have hk := (List.getElem?_eq_some_iff.1 he).1
  refine (engineTurn_request he hp hd).trans ((Serves.exec_eq
    (s := { s with active := k, engines := s.engines.set k { e with rbuf := rest } }) hserve
    (by rwa [List.length_set])).trans ?_)
  simp only [State.send, State.modifyEngine, modify_eq_set _ _ _ _ (List.getElem?_set_self hk), List.set_set]
  rfl

theorem State.answered_engine {s : State} {k : Nat} {e : Engine} (he : s.engines[k]? = some e) (rest : List U8)
    (d : DataStore) (bytes : List U8) : (s.answered k e rest d bytes).engines[k]? =
      some { e with rbuf := rest, out := e.out ++ [.frame bytes] } :=
  List.getElem?_set_self (List.getElem?_eq_some_iff.1 he).1

/-! ### The drain loop -/

/-- The drain loop of engine `k` (41_engine.md R71), from a state in which it drains to the one in which it is idle again. -/
inductive Drains (k : Nat) : State → State → Prop where
  /-- No whole frame is left: the loop ends. -/
  | waits {s : State} {e : Engine} (he : s.engines[k]? = some e) (hp : e.phase = .drain)
      (hd : decode e.rbuf = .incomplete) : Drains k s { s with engines := s.engines.set k { e with phase := .idle } }
  /-- An invalid frame ends the loop with a connection fault. -/
  | faults {s : State} {e : Engine} {f : Frame} (he : s.engines[k]? = some e) (hp : e.phase = .drain)
      (hd : decode e.rbuf = .invalidFrame f) : Drains k s { s with engines := s.engines.set k e.connectionFault }
  /-- A request is answered, and the loop goes on. -/
  | answers {s t : State} {e : Engine} {i : Instr} {rest : List U8} {d : DataStore} {fc : U8} {data : List U8}
      (he : s.engines[k]? = some e) (hp : e.phase = .drain) (hd : decode e.rbuf = .request i rest)
      (hserve : Serves i s.store d fc data) (ht : Drains k (s.answered k e rest d (adu i.tag fc data)) t) : Drains k s t

/-- The loop ends: each request takes bytes from the buffer. -/
theorem exists_drains {s : State} {k : Nat} {e : Engine} (he : s.engines[k]? = some e) (hp : e.phase = .drain) :
    ∃ t, Drains k s t := by
  induction hn : e.rbuf.length using Nat.strongRecOn generalizing s e with
  | ind n ih =>
    cases hd : decode e.rbuf with
    | incomplete => exact ⟨_, .waits he hp hd⟩
    | invalidFrame f => exact ⟨_, .faults he hp hd⟩
    | request i rest =>
      obtain ⟨d, fc, data, hserve⟩ := exists_serves i s.store
      have hlen := decode_request_rest_length hd
      obtain ⟨t, ht⟩ := ih rest.length (by omega) (State.answered_engine he rest d (adu i.tag fc data)) hp rfl
      exact ⟨t, .answers he hp hd hserve ht⟩

theorem Drains.agenda_eq {k : Nat} {s t : State} (h : Drains k s t) : t.agenda = s.agenda := by
  induction h with
  | waits => rfl
  | faults => rfl
  | answers _ _ _ _ _ ih => exact ih

theorem Drains.rbufCap_eq {k : Nat} {s t : State} (h : Drains k s t) : t.rbufCap = s.rbufCap := by
  induction h with
  | waits => rfl
  | faults => rfl
  | answers _ _ _ _ _ ih => exact ih

/-- The loop ends with the engine idle, and faulted or without a whole frame. -/
theorem Drains.ends {k : Nat} {s t : State} (h : Drains k s t) :
    ∃ e', t.engines[k]? = some e' ∧ e'.phase = .idle ∧ (e'.fault = false → decode e'.rbuf = .incomplete) := by
  induction h with
  | waits he _ hd => exact ⟨_, List.getElem?_set_self (List.getElem?_eq_some_iff.1 he).1, rfl, fun _ => hd⟩
  | faults he => exact ⟨_, List.getElem?_set_self (List.getElem?_eq_some_iff.1 he).1, rfl, fun hf => by cases hf⟩
  | answers _ _ _ _ _ ih => exact ih

/-! ### The loop on the machine -/

/-- The machine run over `n` turns of engine `k` and nothing else. -/
def turns (k n : Nat) (s : State) : Host.Outcome State Fault Refusal :=
  Sys2Proof.core.run n { s with agenda := List.replicate n (.engine k) }

theorem State.with_agenda {s : State} {agenda : List Event} (h : s.agenda = agenda) : { s with agenda := agenda } = s := by
  rw [← h]

/-- A run whose first step answers `t` goes on from `t`. -/
theorem run_succ {M : Host.Core} {n : Nat} {s t : M.State} (h : M.step s = .next t) : M.run (n + 1) s = M.run n t := by
  simp only [Host.Core.run, h]

theorem run_event {n : Nat} {ev : Event} {rest : List Event} {s t : State}
    (h : perform ev { s with agenda := rest } = .next t) :
    Sys2Proof.core.run (n + 1) { s with agenda := ev :: rest } = Sys2Proof.core.run n t :=
  run_succ (M := Sys2Proof.core) h

/-- One turn, and then the others from the state it leaves. -/
theorem turns_succ {k n : Nat} {s t : State} (h : engineTurn k { s with agenda := List.replicate n (.engine k) } = .next t)
    (hag : t.agenda = List.replicate n (.engine k)) : turns k (n + 1) s = turns k n t :=
  (run_event (ev := .engine k) h).trans (congrArg (Sys2Proof.core.run n) (State.with_agenda hag).symm)

/-- The turns of an idle engine only use up the agenda. -/
theorem turns_idle {k : Nat} {s : State} {e : Engine} (he : s.engines[k]? = some e) (hp : e.phase = .idle) (n : Nat) :
    turns k n s = .next { s with agenda := [] } := by
  induction n with
  | zero => rfl
  | succ n ih =>
    rw [turns_succ (engineTurn_idle (s := { s with agenda := List.replicate n (.engine k) }) he hp) rfl]
    exact ih

/-- More turns than the buffer has bytes run the whole loop. -/
theorem Drains.turns_eq {k : Nat} {s t : State} (h : Drains k s t) {e : Engine} (he : s.engines[k]? = some e) {n : Nat}
    (hn : e.rbuf.length < n) : turns k n s = .next { t with agenda := [] } := by
  obtain ⟨m, rfl⟩ : ∃ m, n = m + 1 := ⟨n - 1, by omega⟩
  induction h generalizing e m with
  | @waits s x hx hp hd =>
    rw [turns_succ (engineTurn_incomplete (s := { s with agenda := _ }) hx hp hd) rfl]
    exact turns_idle (List.getElem?_set_self (List.getElem?_eq_some_iff.1 hx).1) rfl m
  | @faults s x f hx hp hd =>
    rw [turns_succ (engineTurn_invalidFrame (s := { s with agenda := _ }) hx hp hd) rfl]
    exact turns_idle (List.getElem?_set_self (List.getElem?_eq_some_iff.1 hx).1) rfl m
  | @answers s t x i rest d fc data hx hp hd hserve ht ih =>
    obtain rfl := Option.some.inj (he.symm.trans hx)
    have hlen := decode_request_rest_length hd
    obtain ⟨m, rfl⟩ : ∃ m', m = m' + 1 := ⟨m - 1, by omega⟩
    rw [turns_succ (engineTurn_answered (s := { s with agenda := _ }) hx hp hd hserve) rfl]
    exact ih (State.answered_engine hx rest d _) m (by simp only; omega)

/-! ### One call -/

/-- The state after a chunk has been appended to the buffer of engine `k`, in the state `e`, which drains (41_engine.md R69). -/
def State.delivered (s : State) (k : Nat) (e : Engine) (chunk : List U8) : State :=
  { s with engines := s.engines.set k { e with rbuf := e.rbuf ++ chunk, phase := .drain } }

theorem State.delivered_engine {s : State} {k : Nat} {e : Engine} (he : s.engines[k]? = some e) (chunk : List U8) :
    (s.delivered k e chunk).engines[k]? = some { e with rbuf := e.rbuf ++ chunk, phase := .drain } :=
  List.getElem?_set_self (List.getElem?_eq_some_iff.1 he).1

section Call

variable {s : State} {k : Nat} {e : Engine} {chunk : List U8}

/-- A call is the host's step and then the engine's turns. -/
theorem processCall_eq_turns {t : State} (he : s.engines[k]? = some e)
    (h : hostProcess k chunk { s with agenda := List.replicate (e.rbuf.length + chunk.length + 1) (.engine k) } = .next t)
    (hag : t.agenda = List.replicate (e.rbuf.length + chunk.length + 1) (.engine k)) :
    processCall k chunk s = turns k (e.rbuf.length + chunk.length + 1) t := by
  have hbuf : s.buffered k = e.rbuf.length := by simp only [State.buffered, he]
  rw [processCall, callAgenda, hbuf, List.length_cons, List.length_replicate]
  exact (run_event (ev := .process k chunk) h).trans (congrArg (Sys2Proof.core.run _) (State.with_agenda hag).symm)

/-- A faulted engine discards the chunk (41_engine.md R73). -/
theorem processCall_faulted (he : s.engines[k]? = some e) (hp : e.phase = .idle) (hf : e.fault = true) :
    processCall k chunk s = .next { s with agenda := [] } := by
  rw [processCall_eq_turns he (hostProcess_faulted (s := { s with agenda := _ }) he hp hf) rfl]
  exact turns_idle he hp _

/-- A chunk beyond `RBUF_CAP` faults the connection (41_engine.md R70). -/
theorem processCall_overflow (he : s.engines[k]? = some e) (hp : e.phase = .idle) (hf : e.fault = false)
    (ho : overflows s.rbufCap (e.rbuf ++ chunk).length = true) :
    processCall k chunk s = .next { s with agenda := [], engines := s.engines.set k e.connectionFault } := by
  rw [processCall_eq_turns he (hostProcess_overflow (s := { s with agenda := _ }) he hp hf ho) rfl]
  exact turns_idle (List.getElem?_set_self (List.getElem?_eq_some_iff.1 he).1) rfl _

/-- A chunk that fits is delivered and drained. -/
theorem processCall_drains {t : State} (he : s.engines[k]? = some e) (hp : e.phase = .idle) (hf : e.fault = false)
    (ho : overflows s.rbufCap (e.rbuf ++ chunk).length = false) (h : Drains k (s.delivered k e chunk) t) :
    processCall k chunk s = .next { t with agenda := [] } := by
  rw [processCall_eq_turns he (hostProcess_fits (s := { s with agenda := _ }) he hp hf ho) rfl]
  exact h.turns_eq (State.delivered_engine he chunk) (by simp only [List.length_append]; omega)

end Call

/-- Settles O52: a call on an idle engine discards the chunk, faults the connection, or runs the drain loop to its end. -/
theorem processCallReturns : Obligations.ProcessCallReturns := by
  intro s k chunk e he hp
  cases hf : e.fault with
  | true => exact ⟨_, e, processCall_faulted he hp hf, rfl, he, hp, fun hf' => by simp [hf] at hf'⟩
  | false =>
    cases ho : overflows s.rbufCap (e.rbuf ++ chunk).length with
    | true => exact ⟨_, _, processCall_overflow he hp hf ho, rfl,
        List.getElem?_set_self (List.getElem?_eq_some_iff.1 he).1, rfl, fun hf' => by cases hf'⟩
    | false =>
      obtain ⟨t, ht⟩ := exists_drains (State.delivered_engine he chunk) rfl
      obtain ⟨e', he', hend⟩ := ht.ends
      exact ⟨_, e', processCall_drains he hp hf ho ht, rfl, he', hend⟩

/-! ### Chunks -/

/-- A loop on a buffer with more bytes behind it: it ends in the same connection fault, or goes on where the loop without them
waits and takes them. -/
theorem Drains.delivered {k : Nat} {s t : State} (h : Drains k s t) (x : List U8) {e : Engine}
    (he : s.engines[k]? = some e) (hf : e.fault = false) :
    ∃ e', t.engines[k]? = some e' ∧ e'.phase = .idle ∧
      ((e'.fault = true ∧ Drains k (s.delivered k e x) t) ∨
        (e'.fault = false ∧ ∀ u, Drains k (t.delivered k e' x) u → Drains k (s.delivered k e x) u)) := by
  induction h generalizing e with
  | @waits s y hy hp hd =>
    obtain rfl := Option.some.inj (he.symm.trans hy)
    refine ⟨_, List.getElem?_set_self (List.getElem?_eq_some_iff.1 he).1, rfl, .inr ⟨hf, fun u hu => ?_⟩⟩
    rwa [State.delivered, List.set_set] at hu
  | @faults s y f hy hp hd =>
    obtain rfl := Option.some.inj (he.symm.trans hy)
    refine ⟨_, List.getElem?_set_self (List.getElem?_eq_some_iff.1 he).1, rfl, .inl ⟨rfl, ?_⟩⟩
    have := Drains.faults (State.delivered_engine he x) rfl (decode_invalidFrame_append hd x)
    rwa [State.delivered, List.set_set] at this
  | @answers s t y i rest d fc data hy hp hd hserve ht ih =>
    obtain rfl := Option.some.inj (he.symm.trans hy)
    have hstate : (s.delivered k e x).answered k { e with rbuf := e.rbuf ++ x, phase := .drain } (rest ++ x) d
        (adu i.tag fc data) = (s.answered k e rest d (adu i.tag fc data)).delivered k
          { e with rbuf := rest, out := e.out ++ [.frame (adu i.tag fc data)] } x := by
      simp only [State.delivered, State.answered, List.set_set]
    have more {u : State} (hu : Drains k ((s.answered k e rest d (adu i.tag fc data)).delivered k
        { e with rbuf := rest, out := e.out ++ [.frame (adu i.tag fc data)] } x) u) : Drains k (s.delivered k e x) u :=
      .answers (State.delivered_engine he x) rfl (decode_request_append hd x) hserve (hstate ▸ hu)
    obtain ⟨e', he', hp', hend⟩ := ih (State.answered_engine he rest d _) hf
    refine ⟨e', he', hp', ?_⟩
    rcases hend with ⟨hf', hu⟩ | ⟨hf', hu⟩
    · exact .inl ⟨hf', more hu⟩
    · exact .inr ⟨hf', fun u h => more (hu u h)⟩

theorem State.delivered_append {s : State} {k : Nat} {e : Engine} (c₁ c₂ : List U8) :
    (s.delivered k e c₁).delivered k { e with rbuf := e.rbuf ++ c₁, phase := .drain } c₂ = s.delivered k e (c₁ ++ c₂) := by
  simp only [State.delivered, List.set_set, List.append_assoc]

/-- The law of chunks (41_engine.md R77) from an empty agenda: the joined call's loop is the first call's
loop with the second chunk behind it. -/
theorem processCall_append {s : State} {k : Nat} {e : Engine} (c₁ c₂ : List U8) (hag : s.agenda = [])
    (hcap : s.rbufCap = none) (he : s.engines[k]? = some e) (hp : e.phase = .idle) :
    ∃ t u, processCall k c₁ s = .next t ∧ processCall k c₂ t = .next u ∧ processCall k (c₁ ++ c₂) s = .next u := by
  have fits {t : State} (ht : t.rbufCap = none) (n : Nat) : overflows t.rbufCap n = false := by rw [ht]; rfl
  cases hf : e.fault with
  | true =>
    have call (c : List U8) := (processCall_faulted (chunk := c) he hp hf).trans (by rw [State.with_agenda hag])
    exact ⟨s, s, call c₁, call c₂, call (c₁ ++ c₂)⟩
  | false =>
    obtain ⟨t, ht⟩ := exists_drains (State.delivered_engine he c₁) rfl
    have htag : t.agenda = [] := ht.agenda_eq.trans hag
    obtain ⟨e', he', hp', hend⟩ := ht.delivered c₂ (State.delivered_engine he c₁) hf
    rw [State.delivered_append] at hend
    have hcall₁ := processCall_drains he hp hf (fits hcap _) ht
    rw [State.with_agenda htag] at hcall₁
    rcases hend with ⟨hf', hjoined⟩ | ⟨hf', hjoined⟩
    · have hcall := processCall_drains he hp hf (fits hcap _) hjoined
      have hcall₂ := processCall_faulted (chunk := c₂) he' hp' hf'
      rw [State.with_agenda htag] at hcall hcall₂
      exact ⟨t, t, hcall₁, hcall₂, hcall⟩
    · obtain ⟨u, hu⟩ := exists_drains (State.delivered_engine he' c₂) rfl
      exact ⟨t, _, hcall₁, processCall_drains he' hp' hf' (fits (ht.rbufCap_eq.trans hcap) _) hu,
        processCall_drains he hp hf (fits hcap _) (hjoined u hu)⟩

/-- Settles O53: a call overwrites the agenda, so it is the call from an empty one. -/
theorem chunkSplitInvisible : Obligations.ChunkSplitInvisible := by
  intro s k c₁ c₂ e hcap he hp
  exact processCall_append (s := { s with agenda := [] }) c₁ c₂ rfl hcap he hp

/-! ### Pipelined requests -/

/-- A response begins with the request's transaction id (30_encoding.md R43). -/
theorem be16_adu (t : Tag) (fc : U8) (data : List U8) :
    be16 ((adu t fc data).getD 0 0) ((adu t fc data).getD 1 0) = t.tid :=
  be16_extract t.tid

/-- The loop on the encodings of well-formed requests answers each in turn and ends with an empty buffer. -/
theorem exists_drains_of_requests {k : Nat} (reqs : List Instr) (hreqs : ∀ i ∈ reqs, i.wellFormed = true) {s : State}
    {e : Engine} (he : s.engines[k]? = some e) (hp : e.phase = .drain) (hr : e.rbuf = reqs.flatMap encode) :
    ∃ (t : State) (bs : List (List U8)), Drains k s t ∧
      t.engines[k]? = some { e with rbuf := [], phase := .idle, out := e.out ++ bs.map OutItem.frame } ∧
      bs.map (fun b => be16 (b.getD 0 0) (b.getD 1 0)) = reqs.map fun i => i.tag.tid := by
  induction reqs generalizing s e with
  | nil =>
    have hr' : e.rbuf = [] := hr
    refine ⟨_, [], .waits he hp (by rw [hr']; rfl), ?_, rfl⟩
    rw [List.getElem?_set_self (List.getElem?_eq_some_iff.1 he).1, List.map_nil, List.append_nil, ← hr']
  | cons i reqs ih =>
    obtain ⟨hi, hreqs⟩ := List.forall_mem_cons.1 hreqs
    have hd : decode e.rbuf = .request i (reqs.flatMap encode) := by
      rw [hr, List.flatMap_cons]
      exact encodedRequestDecodesBack i _ hi
    obtain ⟨d, fc, data, hserve⟩ := exists_serves i s.store
    obtain ⟨t, bs, ht, het, hids⟩ := ih hreqs (State.answered_engine he (reqs.flatMap encode) d (adu i.tag fc data)) hp rfl
    refine ⟨t, adu i.tag fc data :: bs, .answers he hp hd hserve ht, ?_, ?_⟩
    · rw [het, List.map_cons, List.append_assoc, List.singleton_append]
    · rw [List.map_cons, List.map_cons, hids, be16_adu]

/-- Settles O54: the one call delivers the encodings and runs the loop on them. -/
theorem pipelinedRequestsAnsweredInOrder : Obligations.PipelinedRequestsAnsweredInOrder := by
  intro s k reqs e hcap he hp hf hr hreqs
  obtain ⟨t, bs, ht, het, hids⟩ := exists_drains_of_requests reqs hreqs
    (State.delivered_engine he (reqs.flatMap encode)) rfl (by rw [hr, List.nil_append])
  refine ⟨_, bs, processCall_drains he hp hf (by rw [hcap]; rfl) ht, ?_, hids⟩
  rw [← hr, ← hp] at het
  exact het

/-! ### Concurrent requests -/

/-- Two engines that drain answer one request each, the second one on the store the first one leaves. -/
theorem run_two_answered {s : State} {j k : Nat} {ej ek : Engine} {ij ik : Instr} {rj rk : List U8} {d d' : DataStore}
    {fcj fck : U8} {dataj datak : List U8} (hjk : j ≠ k) (hej : s.engines[j]? = some ej) (hek : s.engines[k]? = some ek)
    (hpj : ej.phase = .drain) (hpk : ek.phase = .drain) (hdj : decode ej.rbuf = .request ij rj)
    (hdk : decode ek.rbuf = .request ik rk) (hj : Serves ij s.store d fcj dataj) (hk : Serves ik d d' fck datak) :
    Sys2Proof.core.run 2 { s with agenda := [.engine j, .engine k] } =
      .next ((({ s with agenda := [] } : State).answered j ej rj d (adu ij.tag fcj dataj)).answered k ek rk d'
        (adu ik.tag fck datak)) := by
  have hek' : (({ s with agenda := [] } : State).answered j ej rj d (adu ij.tag fcj dataj)).engines[k]? = some ek :=
    (List.getElem?_set_ne hjk).trans hek
  exact (run_event (ev := .engine j) (engineTurn_answered (s := { s with agenda := [.engine k] }) hej hpj hdj hj)).trans
    (run_event (n := 0) (ev := .engine k) (rest := [])
      (s := ({ s with agenda := [.engine k] } : State).answered j ej rj d (adu ij.tag fcj dataj))
      (engineTurn_answered hek' hpk hdk hk))

/-- A read of registers in range serves every store of the same capacity with that store's words (R82). -/
theorem serves_readHoldingRegisters (u : Tag) {addr count : U16} {d : DataStore} (h1 : 1 ≤ count.toNat)
    (h2 : count.toNat ≤ 125) (hr : addr.toNat + count.toNat ≤ d.hr.cap) :
    Serves (.readHoldingRegisters u (.fields addr count)) d d 0x03
      (BitVec.ofNat 8 (2 * count.toNat) :: wordsOnWire d.hr addr.toNat count.toNat) :=
  .of_send fun v s hd hs => by
    subst hd
    exact (readWordsAnswer s v addr count hs h1 h2).1 hr

/-- What a request serves is what `exec` does to the store, so it keeps the capacities. -/
theorem Serves.hr_cap {i : Instr} {d d' : DataStore} {fc : U8} {data : List U8} (h : Serves i d d' fc data) :
    d'.hr.cap = d.hr.cap := by
  have hslot : State.reset.active < State.reset.engines.length := by decide
  have hx := Serves.exec_eq (s := { State.reset with store := d }) h hslot
  exact (exec_storeStep hx).hr_cap

/-- Settles O55: each engine's step is one whole request, so the reader's response is made of the store before the write or of the
store after it, and the write makes the same store in both orders. -/
theorem noTornRegisterRead : Obligations.NoTornRegisterRead := by
  intro s j k ej ek t u ops addr count rj rk hjk hej hek hpj hpk hdj hdk h1 h2 hr
  obtain ⟨d, fc, data, hwrite⟩ := exists_serves (.writeMultipleRegisters t ops) s.store
  have hreadOld := serves_readHoldingRegisters u h1 h2 hr
  have hreadNew := serves_readHoldingRegisters (d := d) u h1 h2 (hwrite.hr_cap.symm ▸ hr)
  refine ⟨_, _, run_two_answered hjk hej hek hpj hpk hdj hdk hwrite hreadNew,
    run_two_answered hjk.symm hek hej hpk hpj hdk hdj hreadOld hwrite, rfl, ?_, ?_⟩
  · exact State.answered_engine ((List.getElem?_set_ne hjk).trans hek) _ _ _
  · exact (List.getElem?_set_ne hjk).trans (State.answered_engine (s := { s with agenda := [] }) hek _ _ _)

end Sys2Proof.Machine
end
